-- ==== Sys2Proof/Word.lean ====
section
/-! DEFINITION. The byte, the 16-bit field and the two operand widths of the block
(spec/00_scope.md rules R5 and R6). -/

namespace Sys2Proof

/-- One byte of the stream: 8 bits, numbered 7 (most significant) down to 0 (R5 `BYTE`, R6). -/
abbrev Byte := BitVec 8

/-- A 16-bit displacement or immediate field (R26). -/
abbrev Half := BitVec 16

/-- The operand widths, "8 and 16 bits only" (R5); the `wide` bit of an opcode selects one (R36, R37). -/
inductive Width where
  | w8
  | w16
deriving DecidableEq, Repr

end Sys2Proof
end

