-- ==== Sys2Proof/Syntax.lean ====
section
/-! DEFINITION. The instructions: one constructor for each of the 31 rows of
spec/opcode_table.json, in the table's order.

`reg`, `rm` and `r` are 3-bit indexes (0 to 7); `d` and `v` are the raw displacement and immediate
fields of the encoding, a 16-bit one already assembled little-endian (R26); `m` is the whole ModRM
byte a refused form reports (R87) and `b` the whole byte an unknown opcode reports (R83). -/

namespace Sys2Proof

/-- One constructor per row of spec/opcode_table.json. -/
inductive Instr where
  /-- `0x00` in leading position (R82). -/
  | pad
  /-- `0x88`, mod 00: `mov [base], r8` (R64). -/
  | mov88Mem (reg rm : Fin 8)
  /-- `0x88`, mod 01: `mov [base + disp8], r8` (R65). -/
  | mov88Disp8 (reg rm : Fin 8) (d : Byte)
  /-- `0x88`, mod 10: `mov [base + disp16], r8` (R66). -/
  | mov88Disp16 (reg rm : Fin 8) (d : Half)
  /-- `0x88`, mod 11: `mov r8, r8`, destination `rm` (R67). -/
  | mov88Reg (reg rm : Fin 8)
  /-- `0x89`, mod 00: `mov [base], r16` (R68). -/
  | mov89Mem (reg rm : Fin 8)
  /-- `0x89`, mod 01: `mov [base + disp8], r16` (R69). -/
  | mov89Disp8 (reg rm : Fin 8) (d : Byte)
  /-- `0x89`, mod 10: `mov [base + disp16], r16` (R70). -/
  | mov89Disp16 (reg rm : Fin 8) (d : Half)
  /-- `0x89`, mod 11: `mov r16, r16`, destination `rm` (R71). -/
  | mov89Reg (reg rm : Fin 8)
  /-- `0x8A`, mod 00: `mov r8, [base]` (R72). -/
  | mov8AMem (reg rm : Fin 8)
  /-- `0x8A`, mod 01: `mov r8, [base + disp8]` (R73). -/
  | mov8ADisp8 (reg rm : Fin 8) (d : Byte)
  /-- `0x8A`, mod 10: `mov r8, [base + disp16]` (R74). -/
  | mov8ADisp16 (reg rm : Fin 8) (d : Half)
  /-- `0x8A`, mod 11: `mov r8, r8`, destination `reg` (R75). -/
  | mov8AReg (reg rm : Fin 8)
  /-- `0x8B`, mod 00: `mov r16, [base]` (R76). -/
  | mov8BMem (reg rm : Fin 8)
  /-- `0x8B`, mod 01: refused, `UnsupportedForm` (R77). -/
  | unsupported8BDisp8 (m : Byte)
  /-- `0x8B`, mod 10: refused, `UnsupportedForm` (R78). -/
  | unsupported8BDisp16 (m : Byte)
  /-- `0x8B`, mod 11: refused, `UnsupportedForm` (R79). -/
  | unsupported8BReg (m : Byte)
  /-- `0xB0` to `0xB7`: `mov r8, imm8` (R80). -/
  | movImm8 (r : Fin 8) (v : Byte)
  /-- `0xB8` to `0xBF`: `mov r16, imm16` (R81). -/
  | movImm16 (r : Fin 8) (v : Half)
  /-- Unknown leading byte `0x01` (R83). -/
  | unknown01 (b : Byte)
  /-- Unknown leading byte in `0x02` to `0x03` (R83). -/
  | unknown02 (b : Byte)
  /-- Unknown leading byte in `0x04` to `0x07` (R83). -/
  | unknown04 (b : Byte)
  /-- Unknown leading byte in `0x08` to `0x0F` (R83). -/
  | unknown08 (b : Byte)
  /-- Unknown leading byte in `0x10` to `0x1F` (R83). -/
  | unknown10 (b : Byte)
  /-- Unknown leading byte in `0x20` to `0x3F` (R83). -/
  | unknown20 (b : Byte)
  /-- Unknown leading byte in `0x40` to `0x7F` (R83). -/
  | unknown40 (b : Byte)
  /-- Unknown leading byte in `0x80` to `0x87` (R83). -/
  | unknown80 (b : Byte)
  /-- Unknown leading byte in `0x8C` to `0x8F` (R83). -/
  | unknown8C (b : Byte)
  /-- Unknown leading byte in `0x90` to `0x9F` (R83). -/
  | unknown90 (b : Byte)
  /-- Unknown leading byte in `0xA0` to `0xAF` (R83). -/
  | unknownA0 (b : Byte)
  /-- Unknown leading byte in `0xC0` to `0xFF` (R83). -/
  | unknownC0 (b : Byte)
deriving DecidableEq, Repr

end Sys2Proof
end

