-- ==== Sys2Proof/WellFormed.lean ====
section
/-! DEFINITION. Which terms of `Instr` stand for an encoding. The indexes and fields carry their
bounds in their types; what is left to check is that a refused form's ModRM byte has the `mod` of its
row (R77 to R79) and that an unknown opcode's byte lies in its row's block (spec/opcode_table.json,
the rows of R83). -/

namespace Sys2Proof

/-- `b` lies in the aligned block a row of the table gives by `mask` and `value`. -/
def inBlock (b mask value : Byte) : Bool := b &&& mask == value

/-- The check of each row. -/
def Instr.wellFormed : Instr → Bool
  | .pad => true
  | .mov88Mem _ _ => true
  | .mov88Disp8 _ _ _ => true
  | .mov88Disp16 _ _ _ => true
  | .mov88Reg _ _ => true
  | .mov89Mem _ _ => true
  | .mov89Disp8 _ _ _ => true
  | .mov89Disp16 _ _ _ => true
  | .mov89Reg _ _ => true
  | .mov8AMem _ _ => true
  | .mov8ADisp8 _ _ _ => true
  | .mov8ADisp16 _ _ _ => true
  | .mov8AReg _ _ => true
  | .mov8BMem _ _ => true
  | .unsupported8BDisp8 m => inBlock m 0xC0#8 0x40#8
  | .unsupported8BDisp16 m => inBlock m 0xC0#8 0x80#8
  | .unsupported8BReg m => inBlock m 0xC0#8 0xC0#8
  | .movImm8 _ _ => true
  | .movImm16 _ _ => true
  | .unknown01 b => inBlock b 0xFF#8 0x01#8
  | .unknown02 b => inBlock b 0xFE#8 0x02#8
  | .unknown04 b => inBlock b 0xFC#8 0x04#8
  | .unknown08 b => inBlock b 0xF8#8 0x08#8
  | .unknown10 b => inBlock b 0xF0#8 0x10#8
  | .unknown20 b => inBlock b 0xE0#8 0x20#8
  | .unknown40 b => inBlock b 0xC0#8 0x40#8
  | .unknown80 b => inBlock b 0xF8#8 0x80#8
  | .unknown8C b => inBlock b 0xFC#8 0x8C#8
  | .unknown90 b => inBlock b 0xF0#8 0x90#8
  | .unknownA0 b => inBlock b 0xF0#8 0xA0#8
  | .unknownC0 b => inBlock b 0xC0#8 0xC0#8

end Sys2Proof
end

