-- ==== Sys2Proof/Decode.lean ====
section
/-! DEFINITION. The decoder and, after it, the encoder (spec/30_encoding.md rules R34 to R53).

The decoder is total on every list of bytes: it reads the instruction at the front of the list and
does not look at a byte before the bytes already read have shown that it is needed (R63). It rejects
by name a list with no leading byte and a list that ends inside an instruction. -/

namespace Sys2Proof

/-! ### Fields of a byte -/

/-- The 3-bit index in bits 2 to 0 of a byte: `rm` of a ModRM byte (R39), `r` of an immediate
opcode (R37). -/
def lowIndex (b : Byte) : Fin 8 := Fin.ofNat 8 (b &&& 0b111#8).toNat

/-- The 3-bit index in bits 5 to 3 of a byte: `reg = (m >> 3) & 0b111` (R39). -/
def midIndex (m : Byte) : Fin 8 := Fin.ofNat 8 ((m >>> 3) &&& 0b111#8).toNat

/-- A 16-bit field from its two bytes, `lo | (hi << 8)`: the byte at the lower offset is the less
significant (R26). -/
def halfOf (lo hi : Byte) : Half := lo.setWidth 16 ||| (hi.setWidth 16 <<< 8)

/-! ### The ModRM interpreter -/

/-- The addressing modes (R39). -/
inductive Mode where
  | memoryNoDisp
  | memoryDisp8
  | memoryDisp16
  | registerDirect
deriving DecidableEq, Repr

/-- A split ModRM byte, "immutable once constructed" (R39). -/
structure ModRM where
  mode : Mode
  reg : Fin 8
  rm : Fin 8
deriving DecidableEq, Repr

/-- The mode that `mod = m >> 6` selects (R39). -/
def modeOf (m : Byte) : Mode :=
  if m >>> 6 = 0b00#8 then .memoryNoDisp
  else if m >>> 6 = 0b01#8 then .memoryDisp8
  else if m >>> 6 = 0b10#8 then .memoryDisp16
  else .registerDirect

/-- `ModRMSplit(m)` (R39): total over all 256 bytes. -/
def modRMSplit (m : Byte) : ModRM := ⟨modeOf m, midIndex m, lowIndex m⟩

/-- `DispLen(mode)`, the displacement bytes after the ModRM byte (R43). -/
def dispLen : Mode → Nat
  | .memoryNoDisp => 0
  | .memoryDisp8 => 1
  | .memoryDisp16 => 2
  | .registerDirect => 0

/-! ### The dispatch table -/

/-- The classes of a leading byte, with the `wide` attribute of those that have one (R49). -/
inductive Class where
  | pad
  | unknown
  | movRmReg (wide : Width)
  | movRegRm (wide : Width)
  | movRegImm (wide : Width)
deriving DecidableEq, Repr

/-- `Classify(b)`, the dispatch table by its rows in increasing order of the leading byte (R49). -/
def classify (b : Byte) : Class :=
  if b = 0x00#8 then .pad
  else if b ≤ 0x87#8 then .unknown
  else if b = 0x88#8 then .movRmReg .w8
  else if b = 0x89#8 then .movRmReg .w16
  else if b = 0x8A#8 then .movRegRm .w8
  else if b = 0x8B#8 then .movRegRm .w16
  else if b ≤ 0xAF#8 then .unknown
  else if b ≤ 0xB7#8 then .movRegImm .w8
  else if b ≤ 0xBF#8 then .movRegImm .w16
  else .unknown

/-- The row of spec/opcode_table.json that an unknown leading byte selects: the twelve blocks of R83
in increasing order. Called for bytes of class `unknown` only. -/
def unknownRow (b : Byte) : Instr :=
  if b ≤ 0x01#8 then .unknown01 b
  else if b ≤ 0x03#8 then .unknown02 b
  else if b ≤ 0x07#8 then .unknown04 b
  else if b ≤ 0x0F#8 then .unknown08 b
  else if b ≤ 0x1F#8 then .unknown10 b
  else if b ≤ 0x3F#8 then .unknown20 b
  else if b ≤ 0x7F#8 then .unknown40 b
  else if b ≤ 0x87#8 then .unknown80 b
  else if b ≤ 0x8F#8 then .unknown8C b
  else if b ≤ 0x9F#8 then .unknown90 b
  else if b ≤ 0xAF#8 then .unknownA0 b
  else .unknownC0 b

/-! ### The decoder -/

/-- Why the decoder reads no instruction from a list of bytes. -/
inductive Reject where
  /-- There is no leading byte: the list is empty. -/
  | endOfStream
  /-- The list ends while a required trailing byte is still expected (R86). -/
  | truncated
deriving DecidableEq, Repr

/-- `0x88` and `0x89` once the ModRM byte `m` is read; `rest` is what follows it (R36, R43). -/
def decodeMovRmReg (wide : Width) (m : Byte) (rest : List Byte) : Except Reject Instr :=
  match wide, modeOf m, rest with
  | .w8, .memoryNoDisp, _ => .ok (.mov88Mem (midIndex m) (lowIndex m))
  | .w8, .memoryDisp8, d :: _ => .ok (.mov88Disp8 (midIndex m) (lowIndex m) d)
  | .w8, .memoryDisp16, lo :: hi :: _ => .ok (.mov88Disp16 (midIndex m) (lowIndex m) (halfOf lo hi))
  | .w8, .registerDirect, _ => .ok (.mov88Reg (midIndex m) (lowIndex m))
  | .w16, .memoryNoDisp, _ => .ok (.mov89Mem (midIndex m) (lowIndex m))
  | .w16, .memoryDisp8, d :: _ => .ok (.mov89Disp8 (midIndex m) (lowIndex m) d)
  | .w16, .memoryDisp16, lo :: hi :: _ => .ok (.mov89Disp16 (midIndex m) (lowIndex m) (halfOf lo hi))
  | .w16, .registerDirect, _ => .ok (.mov89Reg (midIndex m) (lowIndex m))
  | _, .memoryDisp8, [] => .error .truncated
  | _, .memoryDisp16, [] => .error .truncated
  | _, .memoryDisp16, [_] => .error .truncated

/-- `0x8A` and `0x8B` once the ModRM byte `m` is read; `rest` is what follows it. A refused `0x8B`
mode asks for no byte after the ModRM byte (R53, R77 to R79). -/
def decodeMovRegRm (wide : Width) (m : Byte) (rest : List Byte) : Except Reject Instr :=
  match wide, modeOf m, rest with
  | .w8, .memoryNoDisp, _ => .ok (.mov8AMem (midIndex m) (lowIndex m))
  | .w8, .memoryDisp8, d :: _ => .ok (.mov8ADisp8 (midIndex m) (lowIndex m) d)
  | .w8, .memoryDisp16, lo :: hi :: _ => .ok (.mov8ADisp16 (midIndex m) (lowIndex m) (halfOf lo hi))
  | .w8, .registerDirect, _ => .ok (.mov8AReg (midIndex m) (lowIndex m))
  | .w16, .memoryNoDisp, _ => .ok (.mov8BMem (midIndex m) (lowIndex m))
  | .w16, .memoryDisp8, _ => .ok (.unsupported8BDisp8 m)
  | .w16, .memoryDisp16, _ => .ok (.unsupported8BDisp16 m)
  | .w16, .registerDirect, _ => .ok (.unsupported8BReg m)
  | .w8, .memoryDisp8, [] => .error .truncated
  | .w8, .memoryDisp16, [] => .error .truncated
  | .w8, .memoryDisp16, [_] => .error .truncated

/-- The decoder: the instruction at the front of a list of bytes. -/
def decode : List Byte → Except Reject Instr
  | [] => .error .endOfStream
  | b :: rest =>
    match classify b, rest with
    | .pad, _ => .ok .pad
    | .unknown, _ => .ok (unknownRow b)
    | .movRegImm .w8, v :: _ => .ok (.movImm8 (lowIndex b) v)
    | .movRegImm .w16, lo :: hi :: _ => .ok (.movImm16 (lowIndex b) (halfOf lo hi))
    | .movRegImm .w8, [] => .error .truncated
    | .movRegImm .w16, [] => .error .truncated
    | .movRegImm .w16, [_] => .error .truncated
    | .movRmReg wide, m :: rest' => decodeMovRmReg wide m rest'
    | .movRegRm wide, m :: rest' => decodeMovRegRm wide m rest'
    | .movRmReg _, [] => .error .truncated
    | .movRegRm _, [] => .error .truncated

/-! ### The encoder -/

/-- The ModRM byte with fields `mod`, `reg`, `rm` in bits 7:6, 5:3 and 2:0 (R36). -/
def modRMByte (mod : BitVec 2) (reg rm : Fin 8) : Byte :=
  mod.setWidth 8 <<< 6 ||| BitVec.ofNat 8 reg.val <<< 3 ||| BitVec.ofNat 8 rm.val

/-- The less significant byte of a 16-bit field, stored first (R26). -/
def loByte (v : Half) : Byte := v.setWidth 8

/-- The more significant byte of a 16-bit field, stored second (R26). -/
def hiByte (v : Half) : Byte := (v >>> 8).setWidth 8

/-- The bytes of an instruction in stream order (R35 to R38, and the `encoding` column of
spec/opcode_table.json). -/
def encode : Instr → List Byte
  | .pad => [0b00000000#8]
  | .mov88Mem reg rm => [0b10001000#8, modRMByte 0b00#2 reg rm]
  | .mov88Disp8 reg rm d => [0b10001000#8, modRMByte 0b01#2 reg rm, d]
  | .mov88Disp16 reg rm d => [0b10001000#8, modRMByte 0b10#2 reg rm, loByte d, hiByte d]
  | .mov88Reg reg rm => [0b10001000#8, modRMByte 0b11#2 reg rm]
  | .mov89Mem reg rm => [0b10001001#8, modRMByte 0b00#2 reg rm]
  | .mov89Disp8 reg rm d => [0b10001001#8, modRMByte 0b01#2 reg rm, d]
  | .mov89Disp16 reg rm d => [0b10001001#8, modRMByte 0b10#2 reg rm, loByte d, hiByte d]
  | .mov89Reg reg rm => [0b10001001#8, modRMByte 0b11#2 reg rm]
  | .mov8AMem reg rm => [0b10001010#8, modRMByte 0b00#2 reg rm]
  | .mov8ADisp8 reg rm d => [0b10001010#8, modRMByte 0b01#2 reg rm, d]
  | .mov8ADisp16 reg rm d => [0b10001010#8, modRMByte 0b10#2 reg rm, loByte d, hiByte d]
  | .mov8AReg reg rm => [0b10001010#8, modRMByte 0b11#2 reg rm]
  | .mov8BMem reg rm => [0b10001011#8, modRMByte 0b00#2 reg rm]
  | .unsupported8BDisp8 m => [0b10001011#8, m]
  | .unsupported8BDisp16 m => [0b10001011#8, m]
  | .unsupported8BReg m => [0b10001011#8, m]
  | .movImm8 r v => [0b10110000#8 ||| BitVec.ofNat 8 r.val, v]
  | .movImm16 r v => [0b10111000#8 ||| BitVec.ofNat 8 r.val, loByte v, hiByte v]
  | .unknown01 b => [b]
  | .unknown02 b => [b]
  | .unknown04 b => [b]
  | .unknown08 b => [b]
  | .unknown10 b => [b]
  | .unknown20 b => [b]
  | .unknown40 b => [b]
  | .unknown80 b => [b]
  | .unknown8C b => [b]
  | .unknown90 b => [b]
  | .unknownA0 b => [b]
  | .unknownC0 b => [b]

/-! ### Lengths -/

/-- `InsnLen` of an instruction (R50): the bytes its step consumes, the `length` column of
spec/opcode_table.json. -/
def Instr.length : Instr → Nat
  | .pad => 1
  | .mov88Mem _ _ => 2
  | .mov88Disp8 _ _ _ => 3
  | .mov88Disp16 _ _ _ => 4
  | .mov88Reg _ _ => 2
  | .mov89Mem _ _ => 2
  | .mov89Disp8 _ _ _ => 3
  | .mov89Disp16 _ _ _ => 4
  | .mov89Reg _ _ => 2
  | .mov8AMem _ _ => 2
  | .mov8ADisp8 _ _ _ => 3
  | .mov8ADisp16 _ _ _ => 4
  | .mov8AReg _ _ => 2
  | .mov8BMem _ _ => 2
  | .unsupported8BDisp8 _ => 2
  | .unsupported8BDisp16 _ => 2
  | .unsupported8BReg _ => 2
  | .movImm8 _ _ => 2
  | .movImm16 _ _ => 3
  | .unknown01 _ => 1
  | .unknown02 _ => 1
  | .unknown04 _ => 1
  | .unknown08 _ => 1
  | .unknown10 _ => 1
  | .unknown20 _ => 1
  | .unknown40 _ => 1
  | .unknown80 _ => 1
  | .unknown8C _ => 1
  | .unknown90 _ => 1
  | .unknownA0 _ => 1
  | .unknownC0 _ => 1

/-- `need`: how many bytes a step asks for, told from the leading byte `b` and, for format `RM`, the
byte `m` after it (R50, R51). The refused `0x8B` modes need the two bytes they examine (R53, R87). -/
def insnLen (b m : Byte) : Nat :=
  match classify b with
  | .pad => 1
  | .unknown => 1
  | .movRegImm .w8 => 2
  | .movRegImm .w16 => 3
  | .movRmReg _ => 2 + dispLen (modeOf m)
  | .movRegRm .w8 => 2 + dispLen (modeOf m)
  | .movRegRm .w16 => 2

/-! ### The table's words -/

/-- The bytes of a word of spec/opcode_table.json, in stream order, four of them.
The table reads its first two bytes as `(byte0 << 8) | byte1`: bit 0 is the least significant bit of
that 16-bit word and the leading byte is bits 15:8 (spec/30_encoding.md, "How to read
opcode_table.json"). A second 16-bit word, bits 31:16, is laid out the same way, and the bits from
`nbits` up are zero. DEDUCED (log entry 8): a row given in 8 bits has only its leading byte. -/
def tableBytes (nbits w : Nat) : List Byte :=
  if nbits ≤ 8 ∧ w < 256 then [BitVec.ofNat 8 w, 0#8, 0#8, 0#8]
  else
    let v := w % 2 ^ max 16 nbits
    [BitVec.ofNat 8 (v / 256), BitVec.ofNat 8 v,
      BitVec.ofNat 8 (v / 16777216), BitVec.ofNat 8 (v / 65536)]

/-- The instruction the decoder reads from a word of spec/opcode_table.json. -/
def decodeTableWord (nbits w : Nat) : Option Instr :=
  match decode (tableBytes nbits w) with
  | .ok i => some i
  | .error _ => none

end Sys2Proof
end

