-- ==== Sys2Proof/Config.lean ====
section
/-! DEFINITION. What is fixed for the block (spec/00_scope.md rule R5).

The OPEN parameters are not constants: the stream `S` and its length `LEN` stand in `State`
(`mem`, `len`), since the host places them before a run (R100), and `POS_WIDTH` is an argument of
the statements about it, since the model holds `pos` as a natural number (R10, R106; log entry 3).
No behaviour of the block is left with an unstated value, so there is no free value here. -/

namespace Sys2Proof.Config

/-- `WINDOW`, the bytes the combinational decoder sees (R5, R25; decision D2 of the spec). -/
def windowBytes : Nat := 4

/-- What an offset below `LEN` that the memory list does not name reads as.
DESIGN CHOICE (log entry 2): a byte `0x00` of the stream is held by listing nothing, so that each
stream has one list. Every offset below `LEN` is placed by the host before the run (R100); an offset
at or above `LEN` does not exist and is never read. -/
def unlistedByte : Byte := 0x00#8

end Sys2Proof.Config
end

