-- ==== Sys2Proof/Machine/State.lean ====
section
/-! DEFINITION. The state of the block, the records it emits, the reasons a step can stop, and the
state right after reset (spec/10_state.md rules R9 to R19, spec/40_dispatch.md rule R59). -/

namespace Sys2Proof.Machine

/-! ### Operands and records -/

/-- A tagged signed value `i8 v` or `i16 v`: a displacement (R44) or an immediate (R45). -/
inductive Value where
  | i8 (v : Int)
  | i16 (v : Int)
deriving DecidableEq, Repr

/-- An operand (R46). `base` is the `rm` field, an index into `BASE`; a displacement that is `none` is
the absent one of `MemoryNoDisp`. -/
inductive Operand where
  | register (index : Fin 8) (width : Width)
  | memory (base : Fin 8) (disp : Option Value)
  | immediate (value : Value)
deriving DecidableEq, Repr

/-- What a step may emit (R59). The mnemonic of an instruction record is always `mov`; its destination
stands first. -/
inductive Record where
  | insn (dst src : Operand)
  | unknown (b : Byte)
  | failTruncated (offset : Nat)
  | failUnsupportedForm (m : Byte) (offset : Nat)
deriving DecidableEq, Repr

/-- One entry of the output sequence: a record and, beside it, the offset `start` of the leading byte
and the number `n` of bytes the step consumed (R59; DESIGN CHOICE, log entry 6). -/
structure Emission where
  start : Nat
  n : Nat
  record : Record
deriving DecidableEq, Repr

/-! ### The state -/

/-- The cause of a failure (R84), by name (log entry 10). -/
inductive Cause where
  | none
  | unknownOpcode
  | truncated
  | unsupportedForm
deriving DecidableEq, Repr

/-- The stream's bytes as address and byte pairs: addresses strictly rising, and no entry equal to
`Config.unlistedByte`, which an unlisted offset below `len` reads as (log entry 2). -/
abbrev Memory := List Host.Cell

/-- The state of the block: exactly the five items of R9, and no other field. -/
structure Block where
  /-- The cursor: the offset of the next leading byte, the block's program counter (R10). -/
  pos : Nat
  /-- The status bit (R14). -/
  halted : Bool
  /-- The cause code of the failure report (R15, R84). -/
  faultKind : Cause
  /-- The offset of the missing byte or of the refused ModRM byte (R15). -/
  faultOffset : Nat
  /-- The offset of the leading byte of the step that failed (R15). -/
  faultStart : Nat
deriving DecidableEq, Repr

/-- The machine that the host's step runs: the block's state, and around it what R16 says is not state of the
block. `mem` and `len` are the parameters `S` and `LEN` of its step function, fixed for a run (R16 (a));
`output` is the append-only log, outside the block's state, of the records the sink has taken (R7, R16 (c)),
which no step reads. The fixed shape of a step, a function of one state, asks for their place here (log
entry 1). -/
structure State extends Block where
  /-- The stream `S` (R20). -/
  mem : Memory
  /-- The stream's length `LEN` (R5, R20). -/
  len : Nat
  /-- The records emitted so far, in step order (R62). -/
  output : List Emission
deriving DecidableEq, Repr

/-! ### The reasons a step can stop -/

/-- Reasons a step stops with a fault. `Truncated` and `UnsupportedForm` are not among them: they are
outcomes the spec describes, taken into a next state with `halted` set (R92). -/
inductive Fault where
  /-- Raised by a step of a state whose cursor lies past the end of the stream, `LEN < pos`. The spec
  says the cursor satisfies `0 <= pos <= LEN` (R10), so no offset there exists; no step and no reset
  reaches such a state. DESIGN CHOICE (log entry 5). Safe. -/
  | cursorPastEnd
deriving DecidableEq, Repr

/-- Reasons an instruction is refused. -/
inductive Refusal where
  /-- An instruction with no meaning in the model. No arm of `exec` raises it: every row of the opcode
  table has its meaning. Safe. -/
  | notModelled (mnemonic : String)
deriving DecidableEq, Repr

/-! ### Reset -/

/-- The block's state after reset: every item is written (R19, R98). -/
def Block.reset : Block where
  pos := 0
  halted := false
  faultKind := .none
  faultOffset := 0
  faultStart := 0

/-- The machine right after reset. No program is placed yet: the stream is empty until the host loads one
(R100; log entry 4), and nothing has been emitted. -/
def State.reset : State where
  toBlock := Block.reset
  mem := []
  len := 0
  output := []

end Sys2Proof.Machine
end

