-- ==== Sys2Proof/Machine/Ops.lean ====
section
/-! DEFINITION. The shared operations: the stream and its window, the cursor and the output, taking an
exception, reset, and the host's loading of a program (spec/20_memory.md, spec/40_dispatch.md,
spec/60_exceptions.md, spec/70_reset_and_hazards.md). -/

namespace Sys2Proof.Machine

/-! ### The memory list -/

/-- The canonical form: addresses strictly rising, and no entry equal to what an unlisted address
reads as. -/
def Memory.wf (m : Memory) : Bool :=
  decide (m.Pairwise fun c d => c.1 < d.1) && m.all fun c => c.2 != Config.unlistedByte

/-- The byte at an address: the listed one, or `Config.unlistedByte`. -/
def Memory.read : Memory → Nat → Byte
  | [], _ => Config.unlistedByte
  | c :: cs, a => if c.1 = a then c.2 else Memory.read cs a

/-- The list with address `a` listed as `b` in front, or not listed where `b` is the unlisted byte. -/
def Memory.push (a : Nat) (b : Byte) (m : Memory) : Memory :=
  if b = Config.unlistedByte then m else (a, b) :: m

/-- The host's placing of one byte. The block itself never writes the stream (R22). -/
def Memory.write : Memory → Nat → Byte → Memory
  | [], a, b => Memory.push a b []
  | c :: cs, a, b =>
    if a < c.1 then Memory.push a b (c :: cs)
    else if a = c.1 then Memory.push a b cs
    else c :: Memory.write cs a b

/-- The host's placing of several bytes at consecutive addresses. -/
def Memory.writeBytes : Memory → Nat → List Byte → Memory
  | m, _, [] => m
  | m, a, b :: bs => Memory.writeBytes (Memory.write m a b) (a + 1) bs

/-- `n` bytes at consecutive addresses from `a` on, in increasing order. -/
def Memory.readBytes (m : Memory) : Nat → Nat → List Byte
  | _, 0 => []
  | a, n + 1 => Memory.read m a :: Memory.readBytes m (a + 1) n

/-! ### The stream -/

/-- `S[a]`, defined for `0 <= a < LEN` (R7, R20). -/
def byteAt (s : State) (a : Nat) : Option Byte :=
  if a < s.len then some (s.mem.read a) else none

/-- `MemRead(a, n)`, defined only when `a + n <= LEN` (R7, R20). -/
def memRead (s : State) (a n : Nat) : Option (List Byte) :=
  if a + n ≤ s.len then some (s.mem.readBytes a n) else none

/-- `HasNext` (R23). -/
def hasNext (s : State) : Bool := decide (s.pos < s.len)

/-- `avail(p) = min(4, LEN - p)` (R25). -/
def avail (s : State) : Nat := min Config.windowBytes (s.len - s.pos)

/-- The valid bytes of the window at the cursor: `S[p], …, S[p + avail(p) - 1]` (R25). -/
def window (s : State) : List Byte := s.mem.readBytes s.pos (avail s)

/-! ### The cursor and the output -/

/-- `pos <- p + n`. -/
def advance (n : Nat) (s : State) : State := { s with pos := s.pos + n }

/-- `emit r`: record `r` goes to the sink, with the offset of the step's leading byte and the `n` bytes
the step consumes beside it (R7, R59). Called before the cursor moves. -/
def emit (r : Record) (n : Nat) (s : State) : State :=
  { s with output := s.output ++ [⟨s.pos, n, r⟩] }

/-- The two effects of a step that decodes an instruction of `n` bytes: `emit r; pos <- p + n` (R61). -/
def retire (r : Record) (n : Nat) (s : State) : State := advance n (emit r n s)

/-! ### Taking an exception -/

/-- The three synchronous exceptions (R84) with what a step knows when it raises one: the unknown byte;
the number of bytes the truncated step consumed, all the stream still had; the refused ModRM byte. -/
inductive Exc where
  | unknownOpcode (b : Byte)
  | truncated (n : Nat)
  | unsupportedForm (m : Byte)
deriving DecidableEq, Repr

/-- The failure report and the status bit, written together (R14, R15, R92). Called before the cursor
moves, so that `fault_start` is the offset of the leading byte. -/
def halt (cause : Cause) (offset : Nat) (s : State) : State :=
  { s with halted := true, faultKind := cause, faultOffset := offset, faultStart := s.pos }

/-- Taking an exception (R91, R92, and the exception cases of R61). `UnknownOpcode` emits its
diagnostic, consumes one byte and goes on; the other two emit a failure record, write the failure
report, set `halted` and leave the cursor after the bytes they consumed. -/
def takeException (e : Exc) (s : State) : State :=
  match e with
  | .unknownOpcode b => advance 1 (emit (.unknown b) 1 s)
  | .truncated n =>
    advance n (halt .truncated (s.pos + n) (emit (.failTruncated (s.pos + n)) n s))
  | .unsupportedForm m =>
    advance 2 (halt .unsupportedForm (s.pos + 1) (emit (.failUnsupportedForm m (s.pos + 1)) 2 s))

/-! There is no return from an exception (R94): `UnknownOpcode` is over within its step, and a halt is
left only by reset. -/

/-- Reset applied to a running machine (R19, R98): the five items of the state are written; the stream
and its length are not state and stay, and the records the sink already has stay valid (R93). DEDUCED (log
entry 7). -/
def applyReset (s : State) : State :=
  { s with toBlock := Block.reset }

/-! ### The host's side -/

/-- The host places a whole program and fixes `LEN` before the first step (R100). -/
def load (bytes : List Byte) : State :=
  { State.reset with mem := Memory.writeBytes [] 0 bytes, len := bytes.length }

/-- The status group at its reset values (R14, R15), as a machine that can take a step has it. -/
def clearStatus (s : State) : State :=
  { s with halted := false, faultKind := .none, faultOffset := 0, faultStart := 0 }

/-- `bytes` placed at the cursor, where the next step reads them, in a stream at least long enough to
hold them, with the machine able to take that step. -/
def placeAtCursor (bytes : List Byte) (s : State) : State :=
  clearStatus
    { s with mem := s.mem.writeBytes s.pos bytes, len := max s.len (s.pos + bytes.length) }

/-- The state a step answers, if it answers one (for tests and observations). -/
def nextOf (o : Host.Outcome State Fault Refusal) : Option State :=
  match o with
  | .next s => some s
  | .fault _ => none
  | .refused _ => none

end Sys2Proof.Machine
end

