-- ==== Sys2Proof/Machine/Operands.lean ====
section
/-! DEFINITION. The operand forms and the three name tables (spec/30_encoding.md rules R40 to R48). -/

namespace Sys2Proof.Machine

/-! ### The three read-only tables -/

/-- `REG8`, the 8-bit register names (R40). -/
def reg8Names : Vector String 8 := #v["al", "cl", "dl", "bl", "ah", "ch", "dh", "bh"]

/-- `REG16`, the 16-bit register names (R41). -/
def reg16Names : Vector String 8 := #v["ax", "cx", "dx", "bx", "sp", "bp", "si", "di"]

/-- `BASE`, the memory base expressions by the `rm` field (R42). Entry 6 is `bp` in every memory mode
(R54). -/
def baseNames : Vector String 8 := #v["bx+si", "bx+di", "bp+si", "bp+di", "si", "di", "bp", "bx"]

/-- The name of a register, by the table its width selects (R47). -/
def regName : Width → Fin 8 → String
  | .w8, i => reg8Names[i]
  | .w16, i => reg16Names[i]

/-! ### Displacements and immediates -/

/-- `signed_M(v)`: `v` when bit `M - 1` is 0, and `v - 2^M` when it is 1 (R6). -/
def signed {n : Nat} (v : BitVec n) : Int :=
  if v.msb then (v.toNat : Int) - 2 ^ n else v.toNat

/-- An 8-bit displacement or immediate (R44, R45). -/
def value8 (d : Byte) : Value := .i8 (signed d)

/-- A 16-bit displacement or immediate (R44, R45). -/
def value16 (d : Half) : Value := .i16 (signed d)

/-! ### Operands -/

/-- `RegOp(i, wide)` (R47). -/
def regOp (i : Fin 8) (wide : Width) : Operand := .register i wide

/-- `RmOp(mode, rm, wide, disp)` (R48). -/
def rmOp (mode : Mode) (rm : Fin 8) (wide : Width) (disp : Option Value) : Operand :=
  match mode with
  | .registerDirect => regOp rm wide
  | .memoryNoDisp => .memory rm disp
  | .memoryDisp8 => .memory rm disp
  | .memoryDisp16 => .memory rm disp

/-- The bytes of a format `RM` instruction: opcode, ModRM and `DispLen(mode)` bytes (R50). -/
def rmLength (mode : Mode) : Nat := 2 + dispLen mode

/-- The effect of `dir = 0` (`0x88`, `0x89`): the r/m operand is the destination and the `reg` register
the source (R36). -/
def retireRmReg (wide : Width) (mode : Mode) (reg rm : Fin 8) (disp : Option Value) (s : State) :
    State :=
  retire (.insn (rmOp mode rm wide disp) (regOp reg wide)) (rmLength mode) s

/-- The effect of `dir = 1` (`0x8A`, `0x8B`): the `reg` register is the destination and the r/m operand
the source (R36). -/
def retireRegRm (wide : Width) (mode : Mode) (reg rm : Fin 8) (disp : Option Value) (s : State) :
    State :=
  retire (.insn (regOp reg wide) (rmOp mode rm wide disp)) (rmLength mode) s

end Sys2Proof.Machine
end

