-- ==== Sys2Proof/Machine/Flags.lean ====
section
/-! DEFINITION. The block has no flags, condition codes or predicates (spec/10_state.md rule R12), so no
flag is computed here. Its only status is the trap status of rules R14 and R15: `halted` and the failure
report, whose 2-bit cause code this file gives (spec/60_exceptions.md rule R84). -/

namespace Sys2Proof.Machine

/-- The code of a cause in the 2-bit field `fault_kind` (R84). -/
def Cause.code : Cause → BitVec 2
  | .none => 0#2
  | .unknownOpcode => 1#2
  | .truncated => 2#2
  | .unsupportedForm => 3#2

/-- The field `fault_kind` as the host reads it (R15). -/
def faultKindField (s : State) : BitVec 2 := s.faultKind.code

/-- The exception's cause (R84). -/
def Exc.cause : Exc → Cause
  | .unknownOpcode _ => .unknownOpcode
  | .truncated _ => .truncated
  | .unsupportedForm _ => .unsupportedForm

end Sys2Proof.Machine
end

