-- ==== Sys2Proof/Machine/MovRegImm.lean ====
section
/-! DEFINITION. MOV immediate to register, opcodes `0xB0` to `0xBF` (spec/43_mov_reg_imm.md rules R80, R81). -/

namespace Sys2Proof.Machine

/-- `0xB0` to `0xB7`: `mov r8, imm8` (R80). -/
def execMovImm8 (r : Fin 8) (v : Byte) (s : State) : Host.Outcome State Fault Refusal :=
  .next (retire (.insn (regOp r .w8) (.immediate (value8 v))) 2 s)

/-- `0xB8` to `0xBF`: `mov r16, imm16` (R81). -/
def execMovImm16 (r : Fin 8) (v : Half) (s : State) : Host.Outcome State Fault Refusal :=
  .next (retire (.insn (regOp r .w16) (.immediate (value16 v))) 3 s)

end Sys2Proof.Machine
end

