-- ==== Sys2Proof/Machine/MovRegRm.lean ====
section
/-! DEFINITION. MOV register-or-memory to register, opcodes `0x8A` and `0x8B` (spec/42_mov_reg_rm.md rules
R72 to R79). -/

namespace Sys2Proof.Machine

/-- `0x8A`, mod 00: `mov r8, [base]` (R72). -/
def execMov8AMem (reg rm : Fin 8) (s : State) : Host.Outcome State Fault Refusal :=
  .next (retireRegRm .w8 .memoryNoDisp reg rm none s)

/-- `0x8A`, mod 01: `mov r8, [base + disp8]` (R73). -/
def execMov8ADisp8 (reg rm : Fin 8) (d : Byte) (s : State) : Host.Outcome State Fault Refusal :=
  .next (retireRegRm .w8 .memoryDisp8 reg rm (some (value8 d)) s)

/-- `0x8A`, mod 10: `mov r8, [base + disp16]` (R74). -/
def execMov8ADisp16 (reg rm : Fin 8) (d : Half) (s : State) : Host.Outcome State Fault Refusal :=
  .next (retireRegRm .w8 .memoryDisp16 reg rm (some (value16 d)) s)

/-- `0x8A`, mod 11: `mov r8, r8`, destination `reg` (R75). -/
def execMov8AReg (reg rm : Fin 8) (s : State) : Host.Outcome State Fault Refusal :=
  .next (retireRegRm .w8 .registerDirect reg rm none s)

/-- `0x8B`, mod 00: `mov r16, [base]`, the only form of `0x8B` the block decodes (R76). -/
def execMov8BMem (reg rm : Fin 8) (s : State) : Host.Outcome State Fault Refusal :=
  .next (retireRegRm .w16 .memoryNoDisp reg rm none s)

/-- `0x8B`, mod 01: refused, `raise UnsupportedForm(m, offset = p + 1)` (R77). -/
def execUnsupported8BDisp8 (m : Byte) (s : State) : Host.Outcome State Fault Refusal :=
  .next (takeException (.unsupportedForm m) s)

/-- `0x8B`, mod 10: refused, `raise UnsupportedForm(m, offset = p + 1)` (R78). -/
def execUnsupported8BDisp16 (m : Byte) (s : State) : Host.Outcome State Fault Refusal :=
  .next (takeException (.unsupportedForm m) s)

/-- `0x8B`, mod 11: refused, `raise UnsupportedForm(m, offset = p + 1)` (R79). -/
def execUnsupported8BReg (m : Byte) (s : State) : Host.Outcome State Fault Refusal :=
  .next (takeException (.unsupportedForm m) s)

end Sys2Proof.Machine
end

