-- ==== Sys2Proof/Machine/MovRmReg.lean ====
section
/-! DEFINITION. MOV register to register-or-memory, opcodes `0x88` and `0x89` (spec/41_mov_rm_reg.md rules
R64 to R71). The block decodes and does not execute: the effect is the record and the cursor (R4 (c)). -/

namespace Sys2Proof.Machine

/-- `0x88`, mod 00: `mov [base], r8` (R64). -/
def execMov88Mem (reg rm : Fin 8) (s : State) : Host.Outcome State Fault Refusal :=
  .next (retireRmReg .w8 .memoryNoDisp reg rm none s)

/-- `0x88`, mod 01: `mov [base + disp8], r8` (R65). -/
def execMov88Disp8 (reg rm : Fin 8) (d : Byte) (s : State) : Host.Outcome State Fault Refusal :=
  .next (retireRmReg .w8 .memoryDisp8 reg rm (some (value8 d)) s)

/-- `0x88`, mod 10: `mov [base + disp16], r8` (R66). -/
def execMov88Disp16 (reg rm : Fin 8) (d : Half) (s : State) : Host.Outcome State Fault Refusal :=
  .next (retireRmReg .w8 .memoryDisp16 reg rm (some (value16 d)) s)

/-- `0x88`, mod 11: `mov r8, r8`, destination `rm` (R67). -/
def execMov88Reg (reg rm : Fin 8) (s : State) : Host.Outcome State Fault Refusal :=
  .next (retireRmReg .w8 .registerDirect reg rm none s)

/-- `0x89`, mod 00: `mov [base], r16` (R68). -/
def execMov89Mem (reg rm : Fin 8) (s : State) : Host.Outcome State Fault Refusal :=
  .next (retireRmReg .w16 .memoryNoDisp reg rm none s)

/-- `0x89`, mod 01: `mov [base + disp8], r16` (R69). -/
def execMov89Disp8 (reg rm : Fin 8) (d : Byte) (s : State) : Host.Outcome State Fault Refusal :=
  .next (retireRmReg .w16 .memoryDisp8 reg rm (some (value8 d)) s)

/-- `0x89`, mod 10: `mov [base + disp16], r16` (R70). -/
def execMov89Disp16 (reg rm : Fin 8) (d : Half) (s : State) : Host.Outcome State Fault Refusal :=
  .next (retireRmReg .w16 .memoryDisp16 reg rm (some (value16 d)) s)

/-- `0x89`, mod 11: `mov r16, r16`, destination `rm` (R71). -/
def execMov89Reg (reg rm : Fin 8) (s : State) : Host.Outcome State Fault Refusal :=
  .next (retireRmReg .w16 .registerDirect reg rm none s)

end Sys2Proof.Machine
end

