-- ==== Sys2Proof/Machine/PadUnknown.lean ====
section
/-! DEFINITION. The padding byte and the unknown opcodes (spec/44_pad_unknown.md rules R82, R83). -/

namespace Sys2Proof.Machine

/-- Padding, leading byte `0x00`: `pos <- p + 1`, no record (R82). -/
def execPad (s : State) : Host.Outcome State Fault Refusal :=
  .next (advance 1 s)

/-- Unknown opcode, leading byte `0x01`: `raise UnknownOpcode(b)`, the run goes on (R83, R91). -/
def execUnknown01 (b : Byte) (s : State) : Host.Outcome State Fault Refusal :=
  .next (takeException (.unknownOpcode b) s)

/-- Unknown opcode, leading byte `0x02` to `0x03`: `raise UnknownOpcode(b)`, the run goes on (R83, R91). -/
def execUnknown02 (b : Byte) (s : State) : Host.Outcome State Fault Refusal :=
  .next (takeException (.unknownOpcode b) s)

/-- Unknown opcode, leading byte `0x04` to `0x07`: `raise UnknownOpcode(b)`, the run goes on (R83, R91). -/
def execUnknown04 (b : Byte) (s : State) : Host.Outcome State Fault Refusal :=
  .next (takeException (.unknownOpcode b) s)

/-- Unknown opcode, leading byte `0x08` to `0x0F`: `raise UnknownOpcode(b)`, the run goes on (R83, R91). -/
def execUnknown08 (b : Byte) (s : State) : Host.Outcome State Fault Refusal :=
  .next (takeException (.unknownOpcode b) s)

/-- Unknown opcode, leading byte `0x10` to `0x1F`: `raise UnknownOpcode(b)`, the run goes on (R83, R91). -/
def execUnknown10 (b : Byte) (s : State) : Host.Outcome State Fault Refusal :=
  .next (takeException (.unknownOpcode b) s)

/-- Unknown opcode, leading byte `0x20` to `0x3F`: `raise UnknownOpcode(b)`, the run goes on (R83, R91). -/
def execUnknown20 (b : Byte) (s : State) : Host.Outcome State Fault Refusal :=
  .next (takeException (.unknownOpcode b) s)

/-- Unknown opcode, leading byte `0x40` to `0x7F`: `raise UnknownOpcode(b)`, the run goes on (R83, R91). -/
def execUnknown40 (b : Byte) (s : State) : Host.Outcome State Fault Refusal :=
  .next (takeException (.unknownOpcode b) s)

/-- Unknown opcode, leading byte `0x80` to `0x87`: `raise UnknownOpcode(b)`, the run goes on (R83, R91). -/
def execUnknown80 (b : Byte) (s : State) : Host.Outcome State Fault Refusal :=
  .next (takeException (.unknownOpcode b) s)

/-- Unknown opcode, leading byte `0x8C` to `0x8F`: `raise UnknownOpcode(b)`, the run goes on (R83, R91). -/
def execUnknown8C (b : Byte) (s : State) : Host.Outcome State Fault Refusal :=
  .next (takeException (.unknownOpcode b) s)

/-- Unknown opcode, leading byte `0x90` to `0x9F`: `raise UnknownOpcode(b)`, the run goes on (R83, R91). -/
def execUnknown90 (b : Byte) (s : State) : Host.Outcome State Fault Refusal :=
  .next (takeException (.unknownOpcode b) s)

/-- Unknown opcode, leading byte `0xA0` to `0xAF`: `raise UnknownOpcode(b)`, the run goes on (R83, R91). -/
def execUnknownA0 (b : Byte) (s : State) : Host.Outcome State Fault Refusal :=
  .next (takeException (.unknownOpcode b) s)

/-- Unknown opcode, leading byte `0xC0` to `0xFF`: `raise UnknownOpcode(b)`, the run goes on (R83, R91). -/
def execUnknownC0 (b : Byte) (s : State) : Host.Outcome State Fault Refusal :=
  .next (takeException (.unknownOpcode b) s)

end Sys2Proof.Machine
end

