-- ==== Sys2Proof/Machine/Dispatch.lean ====
section
/-! DEFINITION. The meaning of each instruction: one arm per constructor of `Instr`. -/

namespace Sys2Proof.Machine

/-- The meaning of an instruction. -/
def exec (i : Instr) (s : State) : Host.Outcome State Fault Refusal :=
  match i with
  | .pad => Sys2Proof.Machine.execPad s
  | .mov88Mem reg rm => Sys2Proof.Machine.execMov88Mem reg rm s
  | .mov88Disp8 reg rm d => Sys2Proof.Machine.execMov88Disp8 reg rm d s
  | .mov88Disp16 reg rm d => Sys2Proof.Machine.execMov88Disp16 reg rm d s
  | .mov88Reg reg rm => Sys2Proof.Machine.execMov88Reg reg rm s
  | .mov89Mem reg rm => Sys2Proof.Machine.execMov89Mem reg rm s
  | .mov89Disp8 reg rm d => Sys2Proof.Machine.execMov89Disp8 reg rm d s
  | .mov89Disp16 reg rm d => Sys2Proof.Machine.execMov89Disp16 reg rm d s
  | .mov89Reg reg rm => Sys2Proof.Machine.execMov89Reg reg rm s
  | .mov8AMem reg rm => Sys2Proof.Machine.execMov8AMem reg rm s
  | .mov8ADisp8 reg rm d => Sys2Proof.Machine.execMov8ADisp8 reg rm d s
  | .mov8ADisp16 reg rm d => Sys2Proof.Machine.execMov8ADisp16 reg rm d s
  | .mov8AReg reg rm => Sys2Proof.Machine.execMov8AReg reg rm s
  | .mov8BMem reg rm => Sys2Proof.Machine.execMov8BMem reg rm s
  | .unsupported8BDisp8 m => Sys2Proof.Machine.execUnsupported8BDisp8 m s
  | .unsupported8BDisp16 m => Sys2Proof.Machine.execUnsupported8BDisp16 m s
  | .unsupported8BReg m => Sys2Proof.Machine.execUnsupported8BReg m s
  | .movImm8 r v => Sys2Proof.Machine.execMovImm8 r v s
  | .movImm16 r v => Sys2Proof.Machine.execMovImm16 r v s
  | .unknown01 b => Sys2Proof.Machine.execUnknown01 b s
  | .unknown02 b => Sys2Proof.Machine.execUnknown02 b s
  | .unknown04 b => Sys2Proof.Machine.execUnknown04 b s
  | .unknown08 b => Sys2Proof.Machine.execUnknown08 b s
  | .unknown10 b => Sys2Proof.Machine.execUnknown10 b s
  | .unknown20 b => Sys2Proof.Machine.execUnknown20 b s
  | .unknown40 b => Sys2Proof.Machine.execUnknown40 b s
  | .unknown80 b => Sys2Proof.Machine.execUnknown80 b s
  | .unknown8C b => Sys2Proof.Machine.execUnknown8C b s
  | .unknown90 b => Sys2Proof.Machine.execUnknown90 b s
  | .unknownA0 b => Sys2Proof.Machine.execUnknownA0 b s
  | .unknownC0 b => Sys2Proof.Machine.execUnknownC0 b s

end Sys2Proof.Machine
end

