-- ==== Sys2Proof/Machine/Sequencer.lean ====
section
/-! DEFINITION. What one step does around the meaning of an instruction (spec/40_dispatch.md rule R61),
and the host's placing of an opcode-table word. -/

namespace Sys2Proof.Machine

/-- One step (R61). A halted machine and a machine at the end of the stream change nothing (R90 (1));
otherwise the bytes of the window are decoded, a stream that ends inside an instruction raises
`Truncated` with every byte it still had consumed (R60, R86), and a decoded instruction takes its
effect. A cursor past the end is no state of the block (R10) and faults. -/
def runStep (s : State) : Host.Outcome State Fault Refusal :=
  if s.halted then .next s
  else if s.len < s.pos then .fault .cursorPastEnd
  else
    match decode (window s) with
    | .error .endOfStream => .next s
    | .error .truncated => .next (takeException (.truncated (window s).length) s)
    | .ok i => exec i s

/-- A word of spec/opcode_table.json placed where the next step reads it (log entries 4 and 8). -/
def placeTableWord (s : State) (nbits w : Nat) : State := placeAtCursor (tableBytes nbits w) s

end Sys2Proof.Machine
end

