-- ==== Sys2Proof/Machine/Cursor.lean ====
section
/-! DEFINITION. The step written with the document's sequential byte cursor (spec/20_memory.md rules R23,
R24; spec/40_dispatch.md rule R63): a third reading of the same rules, in which every byte is asked for
one at a time and in order. -/

namespace Sys2Proof.Machine

/-- `NextByte` (R24): the next byte and the cursor moved past it, or `Truncated` with the offset of the
missing byte. -/
def nextByte (s : State) : Except Nat (Byte × State) :=
  if s.pos < s.len then .ok (s.mem.read s.pos, { s with pos := s.pos + 1 }) else .error s.pos

/-- What a decode that was not truncated comes to. -/
inductive CursorOutcome where
  | skip
  | emit (r : Record)
  | unsupportedForm (m : Byte)
deriving DecidableEq, Repr

/-- The displacement bytes a mode asks for (R43, R44), low byte first (R63). -/
def nextDisp (mode : Mode) (s : State) : Except Nat (Option Value × State) :=
  match mode with
  | .memoryNoDisp => .ok (none, s)
  | .registerDirect => .ok (none, s)
  | .memoryDisp8 => do
    let (d, s) ← nextByte s
    .ok (some (.i8 (signed d)), s)
  | .memoryDisp16 => do
    let (lo, s) ← nextByte s
    let (hi, s) ← nextByte s
    .ok (some (.i16 (signed (halfOf lo hi))), s)

/-- The trailing bytes of format `RM` and what they give (R63). -/
def cursorDecodeRM (dir : Bool) (wide : Width) (b : Byte) (s : State) :
    Except Nat (CursorOutcome × State) := do
  let (m, s) ← nextByte s
  let f := modRMSplit m
  if b = 0x8B#8 ∧ f.mode ≠ .memoryNoDisp then
    .ok (.unsupportedForm m, s)
  else
    let (disp, s) ← nextDisp f.mode s
    let e := rmOp f.mode f.rm wide disp
    let g := regOp f.reg wide
    .ok (.emit (if dir then .insn g e else .insn e g), s)

/-- One decode, byte by byte: the outcome and the cursor after the bytes it read, or the offset of the
byte that was required and missing. -/
def cursorDecode (s : State) : Except Nat (CursorOutcome × State) := do
  let (b, s) ← nextByte s
  match classify b with
  | .pad => .ok (.skip, s)
  | .unknown => .ok (.emit (.unknown b), s)
  | .movRegImm .w8 =>
    let (v, s) ← nextByte s
    .ok (.emit (.insn (regOp (lowIndex b) .w8) (.immediate (.i8 (signed v)))), s)
  | .movRegImm .w16 =>
    let (lo, s) ← nextByte s
    let (hi, s) ← nextByte s
    .ok (.emit (.insn (regOp (lowIndex b) .w16) (.immediate (.i16 (signed (halfOf lo hi))))), s)
  | .movRmReg wide => cursorDecodeRM false wide b s
  | .movRegRm wide => cursorDecodeRM true wide b s

/-- One step with the cursor: `while HasNext`, decode, and deal with the outcome (R61, R63, R86). -/
def cursorStep (s : State) : State :=
  if s.halted ∨ ¬ hasNext s then s
  else
    match cursorDecode s with
    | .ok (.skip, t) => t
    | .ok (.emit r, t) => { t with output := t.output ++ [⟨s.pos, t.pos - s.pos, r⟩] }
    | .ok (.unsupportedForm m, t) =>
      { t with
        output := t.output ++ [⟨s.pos, t.pos - s.pos, .failUnsupportedForm m (s.pos + 1)⟩]
        halted := true, faultKind := .unsupportedForm
        faultOffset := s.pos + 1, faultStart := s.pos }
    | .error o =>
      { s with
        pos := o
        output := s.output ++ [⟨s.pos, o - s.pos, .failTruncated o⟩]
        halted := true, faultKind := .truncated, faultOffset := o, faultStart := s.pos }

end Sys2Proof.Machine
end

