-- ==== Sys2Proof/Machine/Format.lean ====
section
/-! DEFINITION. The Instruction Formatter: a pure function from a record to one line of text
(spec/30_encoding.md rules R55 to R58). It is an observation of the records and no part of a step
(R3). -/

namespace Sys2Proof.Machine

/-- A line of text, character by character. -/
abbrev Text := List Char

/-- `Dec(v)`: decimal, no leading zero, no plus sign, `-` before a negative value (R57). -/
def dec : Int → Text
  | .ofNat n => Nat.toDigits 10 n
  | .negSucc n => '-' :: Nat.toDigits 10 (n + 1)

/-- The alphabet of `Hex2` (R57). -/
def hexDigits : Vector Char 16 :=
  #v['0', '1', '2', '3', '4', '5', '6', '7', '8', '9', 'A', 'B', 'C', 'D', 'E', 'F']

/-- `Hex2(b)`: the digit of `b[7:4]`, then the digit of `b[3:0]` (R57). -/
def hex2 (b : Byte) : Text :=
  [hexDigits[b.toNat / 16]'(by have := b.isLt; omega), hexDigits[b.toNat % 16]'(by omega)]

/-- The number a tagged value shows (R56). -/
def Value.toInt : Value → Int
  | .i8 v => v
  | .i16 v => v

/-- The characters around a memory operand (R56). -/
def openBracket : Text := ['[']

def closeBracket : Text := [']']

def plusWord : Text := [' ', '+', ' ']

/-- `Text(operand)` (R56). -/
def textOf : Operand → Text
  | .register i w => (regName w i).toList
  | .memory b none => openBracket ++ baseNames[b].toList ++ closeBracket
  | .memory b (some v) =>
    openBracket ++ baseNames[b].toList ++ plusWord ++ dec v.toInt ++ closeBracket
  | .immediate v => dec v.toInt

/-- The words of a line: those of an instruction record (R55), and those the spec chose for the other
records (R58, decision D9 of the spec). -/
def movWord : Text := ['m', 'o', 'v', ' ']

def commaWord : Text := [',', ' ']

def unknownWords : Text :=
  ['u', 'n', 'k', 'n', 'o', 'w', 'n', ' ',
    'o', 'p', 'c', 'o', 'd', 'e', ':', ' ']

def truncatedWords : Text :=
  ['t', 'r', 'u', 'n', 'c', 'a', 't', 'e', 'd', ' ',
    'a', 't', ' ', 'o', 'f', 'f', 's', 'e', 't', ' ']

def unsupportedWords : Text :=
  ['u', 'n', 's', 'u', 'p', 'p', 'o', 'r', 't', 'e',
    'd', ' ', 'f', 'o', 'r', 'm', ':', ' ', '8', 'B', ' ']

def atOffsetWords : Text := [' ', 'a', 't', ' ', 'o', 'f', 'f', 's', 'e', 't', ' ']

/-- The text of a record (R55, R58). -/
def line : Record → Text
  | .insn dst src => movWord ++ textOf dst ++ commaWord ++ textOf src
  | .unknown b => unknownWords ++ hex2 b
  | .failTruncated o => truncatedWords ++ dec o
  | .failUnsupportedForm m o => unsupportedWords ++ hex2 m ++ atOffsetWords ++ dec o

/-- The text of an output sequence: its lines, separated by one line feed `0x0A` (R55). -/
def outputText : List Emission → Text
  | [] => []
  | [e] => line e.record
  | e :: es => line e.record ++ '\n' :: outputText es

end Sys2Proof.Machine
end

