-- ==== Sys2Proof/Machine/Window.lean ====
section
/-! DEFINITION. The combinational decoder and the step around it, written line by line from the spec's
own pseudocode (spec/40_dispatch.md rules R60, R61), apart from `decode` and `exec`: a second reading of
the same rules that the model's `step` can be compared with. -/

namespace Sys2Proof.Machine

/-- A terminal failure as `Decode` reports it (R60). -/
inductive HaltKind where
  | truncated
  | unsupportedForm (m : Byte)
deriving DecidableEq, Repr

/-- The outcomes of `Decode` (R60). -/
inductive StepOutcome where
  | skip
  | emit (r : Record)
  | halt (k : HaltKind)
deriving DecidableEq, Repr

/-- The `wide` bit as a number. -/
def wideBit : Width → Nat
  | .w8 => 0
  | .w16 => 1

/-- The format `RM` part of `Decode` (R60). `dir` is bit 1 of the opcode (R36). -/
def windowDecodeRM (dir : Bool) (wide : Width) (win : Vector Byte 4) (avail : Nat) :
    StepOutcome × Nat :=
  if avail < 2 then (.halt .truncated, avail)
  else
    let b := win[0]
    let m := win[1]
    let f := modRMSplit m
    if b = 0x8B#8 ∧ f.mode ≠ .memoryNoDisp then (.halt (.unsupportedForm m), 2)
    else
      let need := 2 + dispLen f.mode
      if avail < need then (.halt .truncated, avail)
      else
        let disp : Option Value :=
          match f.mode with
          | .memoryNoDisp => none
          | .registerDirect => none
          | .memoryDisp8 => some (.i8 (signed win[2]))
          | .memoryDisp16 => some (.i16 (signed (halfOf win[2] win[3])))
        let e := rmOp f.mode f.rm wide disp
        let g := regOp f.reg wide
        (.emit (if dir then .insn g e else .insn e g), need)

/-- `Decode(win, avail)` (R60): the outcome and the number of bytes consumed. -/
def windowDecode (win : Vector Byte 4) (avail : Nat) : StepOutcome × Nat :=
  let b := win[0]
  match classify b with
  | .pad => (.skip, 1)
  | .unknown => (.emit (.unknown b), 1)
  | .movRegImm wide =>
    let need := 2 + wideBit wide
    if avail < need then (.halt .truncated, avail)
    else
      let v : Value :=
        match wide with
        | .w8 => .i8 (signed win[1])
        | .w16 => .i16 (signed (halfOf win[1] win[2]))
      (.emit (.insn (regOp (lowIndex b) wide) (.immediate v)), need)
  | .movRmReg wide => windowDecodeRM false wide win avail
  | .movRegRm wide => windowDecodeRM true wide win avail

/-- `Step` (R61) on the five items of the block, with the window `win` at its input and `LEN` a parameter: the
block's next state, and what it hands to the sink. -/
def blockStep (win : Vector Byte 4) (len : Nat) (b : Block) : Block × Option Emission :=
  if b.halted then (b, none)
  else if b.pos = len then (b, none)
  else
    let p := b.pos
    let (o, n) := windowDecode win (min Config.windowBytes (len - p))
    match o with
    | .skip => ({ b with pos := p + n }, none)
    | .emit r => ({ b with pos := p + n }, some ⟨p, n, r⟩)
    | .halt .truncated =>
      ({ b with
          faultKind := .truncated, faultOffset := p + n, faultStart := p
          halted := true, pos := p + n },
        some ⟨p, n, .failTruncated (p + n)⟩)
    | .halt (.unsupportedForm m) =>
      ({ b with
          faultKind := .unsupportedForm, faultOffset := p + 1, faultStart := p
          halted := true, pos := p + n },
        some ⟨p, n, .failUnsupportedForm m (p + 1)⟩)

/-- The machine's step around the block's: the block takes its step, the sink takes what it emits, and the
stream stays. -/
def windowStep (win : Vector Byte 4) (s : State) : State :=
  let (b, e) := blockStep win s.len s.toBlock
  { s with toBlock := b, output := s.output ++ e.toList }

/-- `win` holds the bytes at `pos` to `pos + 3` wherever the stream has them; what it holds beyond is
not defined (R25, R102). -/
def WindowShows (win : Vector Byte 4) (s : State) : Prop :=
  ∀ k : Fin 4, k.val < avail s → win[k] = s.mem.read (s.pos + k.val)

end Sys2Proof.Machine
end

