-- ==== Sys2Proof/Machine/Interface.lean ====
section
/-! DEFINITION. The block's outer signals as functions of the state (spec/00_scope.md section 6), and one
clock edge with the reset input (spec/70_reset_and_hazards.md rule R98). The signals `pos` and `halted`
are the state's fields and `avail` is `Ops`'s. The signals "constrain nothing" (decision D1 of the spec):
the functions are what a step does, seen from outside. -/

namespace Sys2Proof.Machine

/-- `done`: the cursor is at the end of the stream and the block is not halted (R62). -/
def doneSignal (s : State) : Bool := !s.halted && s.pos == s.len

/-- `win`: the bytes at `pos` to `pos + 3`. A byte at index `avail` or above is don't-care on the block;
this function gives it the byte the memory list reads as there, and no step reads it (R25; DESIGN CHOICE, log
entry 11). -/
def winSignal (s : State) : Vector Byte 4 :=
  #v[s.mem.read s.pos, s.mem.read (s.pos + 1), s.mem.read (s.pos + 2), s.mem.read (s.pos + 3)]

/-- `out`: the record this step emits, if it emits one; `out_valid` is that there is one. -/
def outSignal (s : State) : Option Record :=
  match nextOf (step s) with
  | none => none
  | some t => (t.output.drop s.output.length).head?.map Emission.record

/-- `out_valid`: this step emits a record. -/
def outValidSignal (s : State) : Bool := (outSignal s).isSome

/-- `len`: the bytes this step consumes, 0 to 4. -/
def lenSignal (s : State) : Nat :=
  match nextOf (step s) with
  | none => 0
  | some t => t.pos - s.pos

/-- One rising clock edge: the reset input, when it is 1, loads the reset state; otherwise the edge is one
step (R98). -/
def clockEdge (rst : Bool) (s : State) : Host.Outcome State Fault Refusal :=
  if rst then .next (applyReset s) else step s

end Sys2Proof.Machine
end

