-- ==== Sys2Proof/Safety.lean ====
section
/-! DEFINITION. What counts as a legal state, as the end of a run and as a clean run, and the terms the
statements are written in. A statement writes a next state as a record of fields with the functions of this
file, apart from the operations the meanings are built from. -/

namespace Sys2Proof.Machine

/-! ### Legal states -/

/-- The status group says what R14 and R15 say of it: the report is at its reset value while the block is
not halted; after `Truncated` the cursor and `fault_offset` are `LEN` and the leading byte is one of the
last three of the stream (R86); after `UnsupportedForm` the report names a `0x8B` with `mod ≠ 00` whose two
bytes were consumed (R87). -/
def LegalStatus (s : State) : Prop :=
  if s.halted then
    (s.faultKind = .truncated ∧ s.faultOffset = s.len ∧ s.pos = s.len ∧
      s.faultStart < s.len ∧ s.len ≤ s.faultStart + 3) ∨
    (s.faultKind = .unsupportedForm ∧ s.faultOffset = s.faultStart + 1 ∧ s.pos = s.faultStart + 2 ∧
      byteAt s s.faultStart = some 0x8B#8 ∧
      ∃ m, byteAt s (s.faultStart + 1) = some m ∧ 64 ≤ m.toNat)
  else s.faultKind = .none ∧ s.faultOffset = 0 ∧ s.faultStart = 0

/-- The invariant of the machine: the cursor is within the stream (R10), the stream's list is in its
canonical form with nothing listed outside the stream (R20), and the status group is as it may be. -/
structure Legal (s : State) : Prop where
  pos_le_len : s.pos ≤ s.len
  mem_wf : s.mem.wf = true
  mem_in_stream : ∀ c ∈ s.mem, c.1 < s.len
  status : LegalStatus s

/-- The emissions stand in stream order: each begins at or after the end of the one before it, has 1 to 4
bytes, and lies before the cursor (R31, R62). -/
def OrderedOutput (s : State) : Prop :=
  (s.output.Pairwise fun e f => e.start + e.n ≤ f.start) ∧
    ∀ e ∈ s.output, 1 ≤ e.n ∧ e.n ≤ 4 ∧ e.start + e.n ≤ s.pos

/-- A displacement or immediate value lies in the range of its tag (R44, R45). -/
def ValueInRange : Value → Prop
  | .i8 v => -128 ≤ v ∧ v ≤ 127
  | .i16 v => -32768 ≤ v ∧ v ≤ 32767

/-- The instruction records the block can emit (spec/95_test_vectors.md part 4, derived there from R60): two
registers of one width; a memory destination and a register; an 8-bit register and a memory source; a 16-bit
register and a memory source with no displacement; a register and an immediate of its width. An unknown
opcode's byte is one of the 235 (R83). -/
def RecordShape : Record → Prop
  | .insn (.register _ w) (.register _ w') => w = w'
  | .insn (.memory _ none) (.register _ _) => True
  | .insn (.memory _ (some v)) (.register _ _) => ValueInRange v
  | .insn (.register _ .w8) (.memory _ (some v)) => ValueInRange v
  | .insn (.register _ _) (.memory _ none) => True
  | .insn (.register _ .w8) (.immediate (.i8 v)) => ValueInRange (.i8 v)
  | .insn (.register _ .w16) (.immediate (.i16 v)) => ValueInRange (.i16 v)
  | .insn _ _ => False
  | .unknown b =>
    (1 ≤ b.toNat ∧ b.toNat ≤ 0x87) ∨ (0x8C ≤ b.toNat ∧ b.toNat ≤ 0xAF) ∨ 0xC0 ≤ b.toNat
  | .failTruncated _ => True
  | .failUnsupportedForm m _ => 64 ≤ m.toNat

/-! ### Runs -/

/-- A step that is taken: not halted, and a leading byte is there (R18, R61). -/
def Running (s : State) : Prop := s.halted = false ∧ s.pos < s.len

/-- The good end of a run (R62 (a)): every byte of the stream consumed, and not halted. -/
def Done (s : State) : Prop := s.halted = false ∧ s.pos = s.len

/-- A run that ended well and met nothing outside the subset: a halted state is never a good final state
(decision D12 of the spec), and no unknown opcode was diagnosed (spec/93_implementation_defined.md U4). -/
def CleanEnd (s : State) : Prop :=
  Done s ∧ ∀ e ∈ s.output, ∃ dst src, e.record = .insn dst src

/-- The host's bound on the stream for a cursor register of `w` bits (R106). -/
def FitsWidth (w : Nat) (s : State) : Prop := s.len < 2 ^ w

/-! ### The terms of the statements -/

/-- The leading byte is `b`. -/
def LeadingByte (s : State) (b : Byte) : Prop := byteAt s s.pos = some b

/-- The byte after the leading byte has the fields `mod`, `reg` and `rm` in bits 7:6, 5:3 and 2:0 (R36). -/
def ModRMFields (s : State) (mod : Nat) (reg rm : Fin 8) : Prop :=
  ∃ m, byteAt s (s.pos + 1) = some m ∧ m.toNat = 64 * mod + 8 * reg.val + rm.val

/-- `signed_M(v)` of an unsigned `M`-bit number (R6), as a number. -/
def signedValue (M v : Nat) : Int := if v < 2 ^ (M - 1) then (v : Int) else (v : Int) - 2 ^ M

/-- The state after a step at `s` that consumes `n` bytes and emits `r`, and does nothing else. -/
def emitted (s : State) (n : Nat) (r : Record) : State :=
  { s with pos := s.pos + n, output := s.output ++ [⟨s.pos, n, r⟩] }

/-- A step at `s` consumes `n` bytes, emits `r` and does nothing else, and the text of `r` is `text`. -/
def StepsWith (s : State) (n : Nat) (r : Record) (text : Text) : Prop :=
  step s = .next (emitted s n r) ∧ line r = text

/-- The state after `Truncated` was raised by a step at `s` (R86, R92). -/
def truncatedFrom (s : State) : State :=
  { s with
    pos := s.len
    halted := true
    faultKind := .truncated
    faultOffset := s.len
    faultStart := s.pos
    output := s.output ++ [⟨s.pos, s.len - s.pos, .failTruncated s.len⟩] }

/-- A step at `s` raises `Truncated`. -/
def StepIsTruncated (s : State) : Prop := step s = .next (truncatedFrom s)

/-- The state after `UnsupportedForm` was raised by a step at `s` for the ModRM byte `m` (R87, R92). -/
def unsupportedFrom (s : State) (m : Byte) : State :=
  { s with
    pos := s.pos + 2
    halted := true
    faultKind := .unsupportedForm
    faultOffset := s.pos + 1
    faultStart := s.pos
    output := s.output ++ [⟨s.pos, 2, .failUnsupportedForm m (s.pos + 1)⟩] }

/-- A leading byte of the 235 unknown ones (R83). -/
def UnknownByte (b : Byte) : Prop :=
  (1 ≤ b.toNat ∧ b.toNat ≤ 0x87) ∨ (0x8C ≤ b.toNat ∧ b.toNat ≤ 0xAF) ∨ 0xC0 ≤ b.toNat

end Sys2Proof.Machine

namespace Sys2Proof

/-! ### The rows of spec/opcode_table.json -/

/-- The `match` and `mask` of a row, over `(byte0 << 8) | byte1`. -/
structure TableRow where
  value : BitVec 16
  mask : BitVec 16
deriving DecidableEq, Repr

/-- The row that an instruction is (the columns `match` and `mask` of spec/opcode_table.json). -/
def Instr.tableRow : Instr → TableRow
  | .pad => ⟨0x0000#16, 0xFF00#16⟩
  | .mov88Mem _ _ => ⟨0x8800#16, 0xFFC0#16⟩
  | .mov88Disp8 _ _ _ => ⟨0x8840#16, 0xFFC0#16⟩
  | .mov88Disp16 _ _ _ => ⟨0x8880#16, 0xFFC0#16⟩
  | .mov88Reg _ _ => ⟨0x88C0#16, 0xFFC0#16⟩
  | .mov89Mem _ _ => ⟨0x8900#16, 0xFFC0#16⟩
  | .mov89Disp8 _ _ _ => ⟨0x8940#16, 0xFFC0#16⟩
  | .mov89Disp16 _ _ _ => ⟨0x8980#16, 0xFFC0#16⟩
  | .mov89Reg _ _ => ⟨0x89C0#16, 0xFFC0#16⟩
  | .mov8AMem _ _ => ⟨0x8A00#16, 0xFFC0#16⟩
  | .mov8ADisp8 _ _ _ => ⟨0x8A40#16, 0xFFC0#16⟩
  | .mov8ADisp16 _ _ _ => ⟨0x8A80#16, 0xFFC0#16⟩
  | .mov8AReg _ _ => ⟨0x8AC0#16, 0xFFC0#16⟩
  | .mov8BMem _ _ => ⟨0x8B00#16, 0xFFC0#16⟩
  | .unsupported8BDisp8 _ => ⟨0x8B40#16, 0xFFC0#16⟩
  | .unsupported8BDisp16 _ => ⟨0x8B80#16, 0xFFC0#16⟩
  | .unsupported8BReg _ => ⟨0x8BC0#16, 0xFFC0#16⟩
  | .movImm8 _ _ => ⟨0xB000#16, 0xF800#16⟩
  | .movImm16 _ _ => ⟨0xB800#16, 0xF800#16⟩
  | .unknown01 _ => ⟨0x0100#16, 0xFF00#16⟩
  | .unknown02 _ => ⟨0x0200#16, 0xFE00#16⟩
  | .unknown04 _ => ⟨0x0400#16, 0xFC00#16⟩
  | .unknown08 _ => ⟨0x0800#16, 0xF800#16⟩
  | .unknown10 _ => ⟨0x1000#16, 0xF000#16⟩
  | .unknown20 _ => ⟨0x2000#16, 0xE000#16⟩
  | .unknown40 _ => ⟨0x4000#16, 0xC000#16⟩
  | .unknown80 _ => ⟨0x8000#16, 0xF800#16⟩
  | .unknown8C _ => ⟨0x8C00#16, 0xFC00#16⟩
  | .unknown90 _ => ⟨0x9000#16, 0xF000#16⟩
  | .unknownA0 _ => ⟨0xA000#16, 0xF000#16⟩
  | .unknownC0 _ => ⟨0xC000#16, 0xC000#16⟩

/-- A row whose outcome in spec/opcode_table.json is `Emit Insn` or `Skip`: what "a stream meant for this block"
consists of (R104). -/
def Instr.accepted : Instr → Bool
  | .pad => true
  | .mov88Mem _ _ => true
  | .mov88Disp8 _ _ _ => true
  | .mov88Disp16 _ _ _ => true
  | .mov88Reg _ _ => true
  | .mov89Mem _ _ => true
  | .mov89Disp8 _ _ _ => true
  | .mov89Disp16 _ _ _ => true
  | .mov89Reg _ _ => true
  | .mov8AMem _ _ => true
  | .mov8ADisp8 _ _ _ => true
  | .mov8ADisp16 _ _ _ => true
  | .mov8AReg _ _ => true
  | .mov8BMem _ _ => true
  | .unsupported8BDisp8 _ => false
  | .unsupported8BDisp16 _ => false
  | .unsupported8BReg _ => false
  | .movImm8 _ _ => true
  | .movImm16 _ _ => true
  | .unknown01 _ => false
  | .unknown02 _ => false
  | .unknown04 _ => false
  | .unknown08 _ => false
  | .unknown10 _ => false
  | .unknown20 _ => false
  | .unknown40 _ => false
  | .unknown80 _ => false
  | .unknown8C _ => false
  | .unknown90 _ => false
  | .unknownA0 _ => false
  | .unknownC0 _ => false

end Sys2Proof
end

