-- ==== Sys2Proof/Certificates/Slice0/Obligations.lean ====
section
/-! DEFINITION. The statements about the machine. Each one's docstring names the rules of spec/ it
formalises. A next state is written with the terms of Sys2Proof/Safety.lean. -/

open Sys2Proof Sys2Proof.Machine

/-! ## Encoding -/

/-- Words written out bit by bit from the encodings of R35 to R38 decode to the instructions they stand
for, one or more of each family. -/
def Obligations.WordsOfTheEncodingTablesDecode : Prop :=
  decode [0b00000000#8] = .ok .pad ∧
  decode [0b10001000#8, 0b01011100#8, 0b00000100#8] = .ok (.mov88Disp8 3 4 0x04#8) ∧
  decode [0b10001001#8, 0b11011000#8] = .ok (.mov89Reg 3 0) ∧
  decode [0b10001010#8, 0b10011100#8, 0b00101100#8, 0b00000001#8] = .ok (.mov8ADisp16 3 4 300#16) ∧
  decode [0b10001011#8, 0b00011110#8] = .ok (.mov8BMem 3 6) ∧
  decode [0b10001011#8, 0b01000110#8] = .ok (.unsupported8BDisp8 0x46#8) ∧
  decode [0b10110001#8, 0b01111111#8] = .ok (.movImm8 1 127#8) ∧
  decode [0b10111011#8, 0b00111001#8, 0b00110000#8] = .ok (.movImm16 3 12345#16) ∧
  decode [0b10010000#8] = .ok (.unknown90 0x90#8)

/-- Decoding the encoding of any well-formed instruction, whatever follows it in the stream, gives the
instruction back, with every operand at every value the encoding admits. -/
def Obligations.DecodeOfEncodeIsTheInstruction : Prop :=
  ∀ (i : Instr) (rest : List Byte), i.wellFormed = true → decode (encode i ++ rest) = .ok i

/-- The other direction: whatever the decoder reads is well formed, and the bytes it read are that
instruction's encoding, so no two instructions share bytes and a decode never looks past them. -/
def Obligations.DecodedBytesAreTheEncoding : Prop :=
  ∀ (bytes : List Byte) (i : Instr), decode bytes = .ok i →
    i.wellFormed = true ∧ ∃ rest, bytes = encode i ++ rest

/-- Every pair of leading bytes matches exactly one row of spec/opcode_table.json, and the decoder reads
an instruction of that row: `((byte0 << 8) | byte1) & mask = match` holds of a row exactly when it is the
row of the instruction decoded. -/
def Obligations.EachPairOfBytesDecodesToItsOneTableRow : Prop :=
  ∀ b0 b1 b2 b3 : Byte, ∃ i, decode [b0, b1, b2, b3] = .ok i ∧ i.length = insnLen b0 b1 ∧
    ∀ j : Instr, (b0.setWidth 16 <<< 8 ||| b1.setWidth 16) &&& j.tableRow.mask = j.tableRow.value ↔
      j.tableRow = i.tableRow

/-- The decoder rejects a list of bytes as truncated exactly when it holds fewer bytes than the
instruction at its front needs, a number told from the first two bytes alone (R51), and it rejects the
empty list only for having no leading byte. -/
def Obligations.DecodeRejectsExactlyTheShortLists : Prop :=
  (∀ bytes, decode bytes = .error .endOfStream ↔ bytes = []) ∧
  (∀ b, decode [b] = .error .truncated ↔
    (0x88 ≤ b.toNat ∧ b.toNat ≤ 0x8B) ∨ (0xB0 ≤ b.toNat ∧ b.toNat ≤ 0xBF)) ∧
  ∀ b m rest, decode (b :: m :: rest) = .error .truncated ↔ rest.length + 2 < insnLen b m

/-- `Classify` over all 256 leading bytes: the class and `wide` attribute of each range of the table, and
the same by the bit tests of R49. -/
def Obligations.ClassifyFollowsTheDispatchTable : Prop :=
  ∀ b : Byte,
    (classify b = .pad ↔ b.toNat = 0) ∧
    (classify b = .unknown ↔ UnknownByte b) ∧
    (classify b = .movRmReg .w8 ↔ b.toNat = 0x88) ∧
    (classify b = .movRmReg .w16 ↔ b.toNat = 0x89) ∧
    (classify b = .movRegRm .w8 ↔ b.toNat = 0x8A) ∧
    (classify b = .movRegRm .w16 ↔ b.toNat = 0x8B) ∧
    (classify b = .movRegImm .w8 ↔ 0xB0 ≤ b.toNat ∧ b.toNat ≤ 0xB7) ∧
    (classify b = .movRegImm .w16 ↔ 0xB8 ≤ b.toNat ∧ b.toNat ≤ 0xBF) ∧
    ((∃ w, classify b = .movRmReg w ∨ classify b = .movRegRm w) ↔ b.toNat / 4 = 0b100010) ∧
    ((∃ w, classify b = .movRegImm w) ↔ b.toNat / 16 = 0b1011)

/-- `ModRMSplit` over all 256 bytes by the formulas of R39, the displacement bytes of each mode, and that
the three fields give the byte back. -/
def Obligations.ModRMSplitFollowsItsFormulas : Prop :=
  ∀ m : Byte,
    (modRMSplit m).mode =
      (if m.toNat / 64 = 0 then .memoryNoDisp else if m.toNat / 64 = 1 then .memoryDisp8
        else if m.toNat / 64 = 2 then .memoryDisp16 else .registerDirect) ∧
    dispLen (modRMSplit m).mode = (if m.toNat / 64 = 3 then 0 else m.toNat / 64) ∧
    (modRMSplit m).reg.val = m.toNat / 8 % 8 ∧
    (modRMSplit m).rm.val = m.toNat % 8 ∧
    modRMByte (BitVec.ofNat 2 (m.toNat / 64)) (modRMSplit m).reg (modRMSplit m).rm = m

/-- A 16-bit field is little-endian; the signed value of a field is `signed_M` of its unsigned value, in the
range of its tag, and gives the raw bits back modulo `2^M` (R26, R44, R45). -/
def Obligations.FieldsAreLittleEndianAndSigned : Prop :=
  ∀ lo hi : Byte,
    (halfOf lo hi).toNat = lo.toNat + 256 * hi.toNat ∧
    value8 lo = .i8 (signedValue 8 lo.toNat) ∧ ValueInRange (value8 lo) ∧
    signedValue 8 lo.toNat % 256 = lo.toNat ∧
    value16 (halfOf lo hi) = .i16 (signedValue 16 (lo.toNat + 256 * hi.toNat)) ∧
    ValueInRange (value16 (halfOf lo hi)) ∧
    signedValue 16 (lo.toNat + 256 * hi.toNat) % 65536 = lo.toNat + 256 * hi.toNat

/-! ## Instructions run in place -/

/-- A step of a machine that is running runs the decoded instruction: `step` is `exec` of what the decoder
reads from the bytes of the window. -/
def Obligations.StepRunsTheDecodedInstruction : Prop :=
  ∀ (s : State) (i : Instr), Running s → decode (window s) = .ok i →
    i.wellFormed = true ∧ step s = exec i s

/-- A step at a cursor where the bytes of a well-formed instruction stand runs that instruction, at any
offset (R27) and with nothing asked for beyond its last byte (R63). -/
def Obligations.StepRunsTheInstructionPlacedAtTheCursor : Prop :=
  ∀ (s : State) (i : Instr), s.halted = false → i.wellFormed = true →
    memRead s s.pos i.length = some (encode i) → step s = exec i s

/-- A word of the opcode table placed by the host is the instruction the next step runs, from any state whose
stream list is in its canonical form. How a table word is laid out and placed is the model's choice (log
entries 4 and 8). -/
def Obligations.StepRunsThePlacedTableWord : Prop :=
  ∀ (s : State) (nbits w : Nat) (i : Instr), s.mem.wf = true →
    decodeTableWord nbits w = some i →
    step (s.withFetchWord nbits w) = exec i (s.withFetchWord nbits w)

/-- R64 to R71, opcodes `0x88` and `0x89` in all four modes: the record and its text, the bytes consumed, that
nothing else changes, and where the form is truncated. The texts of negative and zero displacements are
decision D8 of the spec (R56), the state after `Truncated` decisions D4 and D5 (R86, R92). -/
def Obligations.MovRegisterToRmStepsAsItsRules : Prop :=
  ∀ (s : State) (w : Width) (reg rm : Fin 8), Running s →
    LeadingByte s (match w with | .w8 => 0x88#8 | .w16 => 0x89#8) →
    (s.len - s.pos = 1 → StepIsTruncated s) ∧
    (ModRMFields s 0b00 reg rm →
      StepsWith s 2 (.insn (.memory rm none) (.register reg w))
        (movWord ++ (openBracket ++ baseNames[rm].toList ++ closeBracket) ++ commaWord ++ (regName w reg).toList)) ∧
    (ModRMFields s 0b01 reg rm →
      (s.len - s.pos = 2 → StepIsTruncated s) ∧
      ∀ d v, byteAt s (s.pos + 2) = some d → v = signedValue 8 d.toNat →
        StepsWith s 3 (.insn (.memory rm (some (.i8 v))) (.register reg w))
          (movWord ++ (openBracket ++ baseNames[rm].toList ++ plusWord ++ dec v ++ closeBracket) ++ commaWord ++
            (regName w reg).toList)) ∧
    (ModRMFields s 0b10 reg rm →
      (s.len - s.pos = 2 ∨ s.len - s.pos = 3 → StepIsTruncated s) ∧
      ∀ lo hi v, byteAt s (s.pos + 2) = some lo → byteAt s (s.pos + 3) = some hi →
        v = signedValue 16 (lo.toNat + 256 * hi.toNat) →
        StepsWith s 4 (.insn (.memory rm (some (.i16 v))) (.register reg w))
          (movWord ++ (openBracket ++ baseNames[rm].toList ++ plusWord ++ dec v ++ closeBracket) ++ commaWord ++
            (regName w reg).toList)) ∧
    (ModRMFields s 0b11 reg rm →
      StepsWith s 2 (.insn (.register rm w) (.register reg w))
        (movWord ++ (regName w rm).toList ++ commaWord ++ (regName w reg).toList))

/-- R72 to R75, opcode `0x8A` in all four modes. The texts of negative and zero displacements are decision D8
of the spec (R56), the state after `Truncated` decisions D4 and D5 (R86, R92). -/
def Obligations.MovRmToByteRegisterStepsAsItsRules : Prop :=
  ∀ (s : State) (reg rm : Fin 8), Running s → LeadingByte s 0x8A#8 →
    (s.len - s.pos = 1 → StepIsTruncated s) ∧
    (ModRMFields s 0b00 reg rm →
      StepsWith s 2 (.insn (.register reg .w8) (.memory rm none))
        (movWord ++ (regName .w8 reg).toList ++ commaWord ++ (openBracket ++ baseNames[rm].toList ++ closeBracket))) ∧
    (ModRMFields s 0b01 reg rm →
      (s.len - s.pos = 2 → StepIsTruncated s) ∧
      ∀ d v, byteAt s (s.pos + 2) = some d → v = signedValue 8 d.toNat →
        StepsWith s 3 (.insn (.register reg .w8) (.memory rm (some (.i8 v))))
          (movWord ++ (regName .w8 reg).toList ++ commaWord ++
            (openBracket ++ baseNames[rm].toList ++ plusWord ++ dec v ++ closeBracket))) ∧
    (ModRMFields s 0b10 reg rm →
      (s.len - s.pos = 2 ∨ s.len - s.pos = 3 → StepIsTruncated s) ∧
      ∀ lo hi v, byteAt s (s.pos + 2) = some lo → byteAt s (s.pos + 3) = some hi →
        v = signedValue 16 (lo.toNat + 256 * hi.toNat) →
        StepsWith s 4 (.insn (.register reg .w8) (.memory rm (some (.i16 v))))
          (movWord ++ (regName .w8 reg).toList ++ commaWord ++
            (openBracket ++ baseNames[rm].toList ++ plusWord ++ dec v ++ closeBracket))) ∧
    (ModRMFields s 0b11 reg rm →
      StepsWith s 2 (.insn (.register reg .w8) (.register rm .w8))
        (movWord ++ (regName .w8 reg).toList ++ commaWord ++ (regName .w8 rm).toList))

/-- R76 to R79 and R87, opcode `0x8B`: `mod = 00` decodes; any other `mod` is refused once the ModRM byte is
there, whatever the stream holds after it, and the run halts; a missing ModRM byte is `Truncated`. The
refusal, which the document leaves open, is decision D6 of the spec, the halted state decisions D4 and D5
(R86, R92), the order of the checks decision D20 (R90). -/
def Obligations.MovRmToWordRegisterStepsAsItsRules : Prop :=
  ∀ (s : State) (reg rm : Fin 8), Running s → LeadingByte s 0x8B#8 →
    (s.len - s.pos = 1 → StepIsTruncated s) ∧
    (ModRMFields s 0b00 reg rm →
      StepsWith s 2 (.insn (.register reg .w16) (.memory rm none))
        (movWord ++ (regName .w16 reg).toList ++ commaWord ++ (openBracket ++ baseNames[rm].toList ++ closeBracket))) ∧
    ∀ m, byteAt s (s.pos + 1) = some m → m.toNat / 64 ≠ 0 →
      step s = .next (unsupportedFrom s m)

/-- R80 and R81, opcodes `0xB0` to `0xBF`. The state after `Truncated` is decisions D4 and D5 of the spec
(R86, R92), the spelling of numbers decision D15 (R57). -/
def Obligations.MovImmediateStepsAsItsRules : Prop :=
  ∀ (s : State) (r : Fin 8) (b : Byte), Running s → LeadingByte s b →
    (b.toNat = 0xB0 + r.val →
      (s.len - s.pos = 1 → StepIsTruncated s) ∧
      ∀ d v, byteAt s (s.pos + 1) = some d → v = signedValue 8 d.toNat →
        StepsWith s 2 (.insn (.register r .w8) (.immediate (.i8 v)))
          (movWord ++ (regName .w8 r).toList ++ commaWord ++ dec v)) ∧
    (b.toNat = 0xB8 + r.val →
      (s.len - s.pos = 1 ∨ s.len - s.pos = 2 → StepIsTruncated s) ∧
      ∀ lo hi v, byteAt s (s.pos + 1) = some lo → byteAt s (s.pos + 2) = some hi →
        v = signedValue 16 (lo.toNat + 256 * hi.toNat) →
        StepsWith s 3 (.insn (.register r .w16) (.immediate (.i16 v)))
          (movWord ++ (regName .w16 r).toList ++ commaWord ++ dec v))

/-- R82: a leading `0x00` is skipped: the cursor moves by one, no record is emitted, nothing else changes. -/
def Obligations.PaddingIsSkipped : Prop :=
  ∀ s : State, Running s → LeadingByte s 0x00#8 → step s = .next { s with pos := s.pos + 1 }

/-- R83, R85 and R91: an unknown leading byte is diagnosed by its own value in two upper-case hexadecimal
digits, consumes exactly one byte whatever follows, and the run goes on; and a step diagnoses a byte only if
it is the leading byte and one of the 235. The words of the diagnostic are decision D9 of the spec (R58). -/
def Obligations.UnknownOpcodeIsDiagnosedAndTheRunGoesOn : Prop :=
  ∀ (s : State) (b : Byte), Running s →
    (LeadingByte s b ∧ UnknownByte b ↔
      StepsWith s 1 (.unknown b) (unknownWords ++ hex2 b))

/-! ## What each meaning answers, from any state -/

/-- `0x88` and `0x89`, every form, from every state: a next state with the record emitted and the cursor
past the form's bytes, and every other item as before. -/
def Obligations.MovRegisterToRmMeaningsComplete : Prop :=
  ∀ (s : State) (reg rm : Fin 8) (d : Byte) (h : Half),
    exec (.mov88Mem reg rm) s = .next (emitted s 2 (.insn (.memory rm none) (.register reg .w8))) ∧
    exec (.mov88Disp8 reg rm d) s = .next (emitted s 3
      (.insn (.memory rm (some (.i8 (signedValue 8 d.toNat)))) (.register reg .w8))) ∧
    exec (.mov88Disp16 reg rm h) s = .next (emitted s 4
      (.insn (.memory rm (some (.i16 (signedValue 16 h.toNat)))) (.register reg .w8))) ∧
    exec (.mov88Reg reg rm) s =
      .next (emitted s 2 (.insn (.register rm .w8) (.register reg .w8))) ∧
    exec (.mov89Mem reg rm) s = .next (emitted s 2 (.insn (.memory rm none) (.register reg .w16))) ∧
    exec (.mov89Disp8 reg rm d) s = .next (emitted s 3
      (.insn (.memory rm (some (.i8 (signedValue 8 d.toNat)))) (.register reg .w16))) ∧
    exec (.mov89Disp16 reg rm h) s = .next (emitted s 4
      (.insn (.memory rm (some (.i16 (signedValue 16 h.toNat)))) (.register reg .w16))) ∧
    exec (.mov89Reg reg rm) s =
      .next (emitted s 2 (.insn (.register rm .w16) (.register reg .w16)))

/-- `0x8A` and the accepted form of `0x8B`, from every state. -/
def Obligations.MovRmToRegisterMeaningsComplete : Prop :=
  ∀ (s : State) (reg rm : Fin 8) (d : Byte) (h : Half),
    exec (.mov8AMem reg rm) s = .next (emitted s 2 (.insn (.register reg .w8) (.memory rm none))) ∧
    exec (.mov8ADisp8 reg rm d) s = .next (emitted s 3
      (.insn (.register reg .w8) (.memory rm (some (.i8 (signedValue 8 d.toNat)))))) ∧
    exec (.mov8ADisp16 reg rm h) s = .next (emitted s 4
      (.insn (.register reg .w8) (.memory rm (some (.i16 (signedValue 16 h.toNat)))))) ∧
    exec (.mov8AReg reg rm) s =
      .next (emitted s 2 (.insn (.register reg .w8) (.register rm .w8))) ∧
    exec (.mov8BMem reg rm) s = .next (emitted s 2 (.insn (.register reg .w16) (.memory rm none)))

/-- The refused `0x8B` forms, whose effect is to take `UnsupportedForm`, from every state: a next state with
the failure record emitted, the failure report written and `halted` set (R77 to R79, R92). The refusal is
decision D6 of the spec. -/
def Obligations.RefusedFormMeaningsHalt : Prop :=
  ∀ (s : State) (m : Byte),
    exec (.unsupported8BDisp8 m) s = .next (unsupportedFrom s m) ∧
    exec (.unsupported8BDisp16 m) s = .next (unsupportedFrom s m) ∧
    exec (.unsupported8BReg m) s = .next (unsupportedFrom s m)

/-- The two immediate forms, from every state. -/
def Obligations.MovImmediateMeaningsComplete : Prop :=
  ∀ (s : State) (r : Fin 8) (v : Byte) (h : Half),
    exec (.movImm8 r v) s = .next (emitted s 2
      (.insn (.register r .w8) (.immediate (.i8 (signedValue 8 v.toNat))))) ∧
    exec (.movImm16 r h) s = .next (emitted s 3
      (.insn (.register r .w16) (.immediate (.i16 (signedValue 16 h.toNat)))))

/-- Padding and the twelve rows of unknown opcodes, from every state. -/
def Obligations.PaddingAndUnknownMeaningsComplete : Prop :=
  ∀ (s : State) (b : Byte),
    exec .pad s = .next { s with pos := s.pos + 1 } ∧
    exec (.unknown01 b) s = .next (emitted s 1 (.unknown b)) ∧
    exec (.unknown02 b) s = .next (emitted s 1 (.unknown b)) ∧
    exec (.unknown04 b) s = .next (emitted s 1 (.unknown b)) ∧
    exec (.unknown08 b) s = .next (emitted s 1 (.unknown b)) ∧
    exec (.unknown10 b) s = .next (emitted s 1 (.unknown b)) ∧
    exec (.unknown20 b) s = .next (emitted s 1 (.unknown b)) ∧
    exec (.unknown40 b) s = .next (emitted s 1 (.unknown b)) ∧
    exec (.unknown80 b) s = .next (emitted s 1 (.unknown b)) ∧
    exec (.unknown8C b) s = .next (emitted s 1 (.unknown b)) ∧
    exec (.unknown90 b) s = .next (emitted s 1 (.unknown b)) ∧
    exec (.unknownA0 b) s = .next (emitted s 1 (.unknown b)) ∧
    exec (.unknownC0 b) s = .next (emitted s 1 (.unknown b))

/-- The frame of every instruction at once: no meaning changes the stream, its length or any byte of it; a
meaning moves the cursor by the instruction's length; it adds at most one record to the output, with that
length and the old cursor beside it; and it leaves `halted` and the failure report as they were unless it is
one of the three refused forms. -/
def Obligations.EveryMeaningKeepsItsFrame : Prop :=
  ∀ (i : Instr) (s t : State), exec i s = .next t →
    t.mem = s.mem ∧ t.len = s.len ∧ (∀ a, byteAt t a = byteAt s a) ∧
    t.pos = s.pos + i.length ∧
    (if i = .pad then t.output = s.output
      else ∃ r, t.output = s.output ++ [⟨s.pos, i.length, r⟩]) ∧
    ((∃ m, i = .unsupported8BDisp8 m ∨ i = .unsupported8BDisp16 m ∨ i = .unsupported8BReg m) ∨
      (t.halted = s.halted ∧ t.faultKind = s.faultKind ∧ t.faultOffset = s.faultOffset ∧
        t.faultStart = s.faultStart))

/-! ## Exceptions and status -/

/-- R86 and R92: a running step raises `Truncated` exactly in the cases the rule lists, and then its next
state has the failure record emitted, `fault_offset` and `pos` at `LEN`, `fault_start` at the leading byte,
and `halted` set. The status it leaves is decisions D4 and D5 of the spec. -/
def Obligations.TruncatedIsRaisedExactlyForMissingBytes : Prop :=
  ∀ (s : State) (b : Byte), Running s → LeadingByte s b →
    (step s = .next (truncatedFrom s) ↔
      (0x88 ≤ b.toNat ∧ b.toNat ≤ 0x8B ∧ s.len - s.pos = 1) ∨
      (0x88 ≤ b.toNat ∧ b.toNat ≤ 0x8A ∧ ∃ m, byteAt s (s.pos + 1) = some m ∧
        ((m.toNat / 64 = 1 ∧ s.len - s.pos = 2) ∨
          (m.toNat / 64 = 2 ∧ (s.len - s.pos = 2 ∨ s.len - s.pos = 3)))) ∨
      (0xB0 ≤ b.toNat ∧ b.toNat ≤ 0xB7 ∧ s.len - s.pos = 1) ∨
      (0xB8 ≤ b.toNat ∧ b.toNat ≤ 0xBF ∧ (s.len - s.pos = 1 ∨ s.len - s.pos = 2)))

/-- R14: `halted` is 0 after reset, no step clears it, a step sets it exactly when its outcome is `Truncated`
or `UnsupportedForm`, and while it is 1 a step changes nothing and emits nothing. The bit is decisions D4 and
D12 of the spec. -/
def Obligations.HaltedIsSetOnlyByTheTerminalOutcomes : Prop :=
  State.reset.halted = false ∧ (∀ s, (applyReset s).halted = false) ∧
  (∀ s, s.halted = true → step s = .next s) ∧
  ∀ s t, s.halted = false → step s = .next t →
    (t.halted = true ↔ t = truncatedFrom s ∨ ∃ m, t = unsupportedFrom s m)

/-- R15: the failure report is written by the step that sets `halted` and by no other step: that step writes
code 2 with the offset of the missing byte, which is `LEN`, or code 3 with the offset of the ModRM byte, and
the offset of its leading byte. The report is decisions D4, D5, D6 and D10 of the spec. -/
def Obligations.FailureReportIsWrittenOnlyByTheHaltingStep : Prop :=
  ∀ s t, s.pos ≤ s.len → step s = .next t →
    if s.halted = false ∧ t.halted = true then
      t.faultStart = s.pos ∧
        ((faultKindField t = 2#2 ∧ t.faultOffset = s.len) ∨
          (faultKindField t = 3#2 ∧ t.faultOffset = s.pos + 1 ∧
            ∃ m, byteAt s (s.pos + 1) = some m ∧ m.toNat / 64 ≠ 0))
    else
      t.faultKind = s.faultKind ∧ t.faultOffset = s.faultOffset ∧ t.faultStart = s.faultStart

/-- R61 and R62: at the end of the stream, and after a halt, a step changes nothing and emits nothing; and a
step of a legal state changes nothing only there. The two ends are decisions D12 and D13 of the spec. -/
def Obligations.OnlyTheEndsOfARunStandStill : Prop :=
  ∀ s, s.pos ≤ s.len → (step s = .next s ↔ s.halted = true ∨ Done s)

/-- R18: a step that is taken moves the cursor by the number of bytes the instruction at the cursor needs, or
by all the stream still has if that is less; that number is 1 to 4 and the cursor stays within the stream. -/
def Obligations.ATakenStepAdvancesTheCursorByOneToFour : Prop :=
  ∀ (s : State) (b m : Byte), Running s → LeadingByte s b →
    (∀ m', byteAt s (s.pos + 1) = some m' → m = m') →
    ∃ t, step s = .next t ∧ t.pos = s.pos + min (insnLen b m) (s.len - s.pos) ∧
      s.pos + 1 ≤ t.pos ∧ t.pos ≤ s.pos + 4 ∧ t.pos ≤ s.len

/-- R59: a step emits at most one record, with the offset of its leading byte and the bytes it consumed beside
it, and the records emitted before it stay. That the records are kept, with their start and n, is the model's
choice (log entries 1 and 6). -/
def Obligations.AStepEmitsAtMostOneRecord : Prop :=
  ∀ s t, s.pos ≤ s.len → step s = .next t →
    t.output = s.output ∨
      ∃ r, t.output = s.output ++ [⟨s.pos, t.pos - s.pos, r⟩] ∧ RecordShape r

/-- R22: no step writes the stream. Every byte at every offset reads after the step as before it, and the
length is unchanged. -/
def Obligations.NoStepWritesTheStream : Prop :=
  ∀ s t, step s = .next t → t.mem = s.mem ∧ t.len = s.len ∧ ∀ a, byteAt t a = byteAt s a

/-- R17: a step depends on the bytes from the cursor onward, on `LEN` and on nothing else: two running states
with the same cursor and length that agree on those bytes take steps to the same cursor and status, emitting
the same records, whatever came before. -/
def Obligations.AStepDependsOnlyOnTheBytesFromTheCursorOn : Prop :=
  ∀ s s', Running s → Running s' → s'.pos = s.pos → s'.len = s.len →
    (∀ a, s.pos ≤ a → byteAt s' a = byteAt s a) →
    ∃ t t' es, step s = .next t ∧ step s' = .next t' ∧
      t.output = s.output ++ es ∧ t'.output = s'.output ++ es ∧
      t'.pos = t.pos ∧ t'.halted = t.halted ∧
      (t.halted = true → t'.faultKind = t.faultKind ∧ t'.faultOffset = t.faultOffset ∧
        t'.faultStart = t.faultStart)

/-! ## Reset, memory and the loading of a program -/

/-- R19 and R98: reset, at any time, writes every item of the state to its reset value, keeps the stream and
its length, emits no record, leaves a legal state of a legal one, and the next step reads the stream from
offset 0. Reset is decision D14 of the spec; that it keeps the records of the sink is the model's choice (log
entries 1 and 7). -/
def Obligations.ResetWritesEveryItemOfTheState : Prop :=
  ∀ s, clockEdge false s = step s ∧ ∃ t, clockEdge true s = .next t ∧
    t.pos = 0 ∧ t.halted = false ∧ faultKindField t = 0#2 ∧ t.faultOffset = 0 ∧ t.faultStart = 0 ∧
    t.mem = s.mem ∧ t.len = s.len ∧ t.output = s.output ∧ (Legal s → Legal t) ∧
    memRead t 0 (min 4 s.len) = some (window t)

/-- The state right after reset is legal, and it is the end of a run of an empty stream (decision D25 of the
spec): with no program placed a step changes nothing. That no program stands in the reset state is the model's
choice (log entry 4). -/
def Obligations.ResetStateIsLegalAndDone : Prop :=
  Legal State.reset ∧ OrderedOutput State.reset ∧ Done State.reset ∧
    Sys2Proof.core.step Sys2Proof.core.reset = .next Sys2Proof.core.reset

/-- A program loaded before the first step is the stream: `S[a]` is its byte at offset `a`, `LEN` its length,
and the loaded machine is at reset and legal. How the stream is held is the model's choice (log entries 1, 2
and 4). -/
def Obligations.LoadPlacesTheWholeStream : Prop :=
  ∀ bytes : List Byte,
    Legal (load bytes) ∧ (load bytes).len = bytes.length ∧ applyReset (load bytes) = load bytes ∧
      ∀ a, byteAt (load bytes) a = bytes[a]?

/-- A stream has one list: two lists in canonical form that read the same everywhere are equal. The canonical
form is the model's choice (log entry 2). -/
def Obligations.CanonicalMemoriesThatReadTheSameAreEqual : Prop :=
  ∀ m m' : Memory, m.wf = true → m'.wf = true → (∀ a, m.read a = m'.read a) → m = m'

/-! ## Invariants and runs -/

/-- Every step from a legal state answers a legal state: the cursor stays within the stream, the stream's list
stays canonical, the status group stays one that R14 and R15 allow. -/
def Obligations.EveryStepKeepsTheInvariant : Prop :=
  ∀ s t, Legal s → step s = .next t → Legal t

/-- The emissions stay in stream order and apart, each of 1 to 4 bytes and before the cursor. That the records
are kept is the model's choice (log entry 1). -/
def Obligations.EveryStepKeepsTheOutputInStreamOrder : Prop :=
  ∀ s t, s.pos ≤ s.len → OrderedOutput s → step s = .next t → OrderedOutput t

/-- No step of a legal state stops with a fault or a refusal, so any number of steps can be taken. -/
def Obligations.NoRunFromALegalStateStops : Prop :=
  ∀ s k, Legal s → ∃ t, Sys2Proof.core.run k s = .next t ∧ Legal t

/-- R106: with `LEN < 2^w` the cursor and the two offsets of the report fit a register of `w` bits after every
run from a legal state, so the cursor never wraps. The register's width is decision D3 of the spec; the model
holds the cursor as a number (log entry 3). -/
def Obligations.TheCursorFitsItsRegister : Prop :=
  ∀ s t k w, Legal s → FitsWidth w s → Sys2Proof.core.run k s = .next t →
    FitsWidth w t ∧ t.pos < 2 ^ w ∧ t.faultOffset < 2 ^ w ∧ t.faultStart < 2 ^ w

/-- R62: every run ends, after at most as many steps as the stream has bytes left, in exactly one of two ways,
done or halted, and stays there. The two ends are decisions D12 and D13 of the spec. -/
def Obligations.EveryRunEndsDoneOrHalted : Prop :=
  ∀ s, Legal s → ∃ k t, k ≤ s.len - s.pos ∧ Sys2Proof.core.run k s = .next t ∧
    ((Done t ∧ t.halted ≠ true) ∨ (t.halted = true ∧ ¬ Done t)) ∧
    ∀ j, Sys2Proof.core.run j t = .next t

/-- R99: a run after reset over the same stream repeats the earlier run exactly, however far the machine had
run before the reset: after the same number of steps it has emitted the same records and is in the same state
but for the records the sink had already. Reset is decision D14 of the spec; the records of the sink are the
model's own item (log entry 1). -/
def Obligations.ARunAfterResetRepeatsTheEarlierRun : Prop :=
  ∀ s s' t j k, Sys2Proof.core.run j s = .next s' → Sys2Proof.core.run k (applyReset s) = .next t →
    ∃ es, t.output = s.output ++ es ∧
      Sys2Proof.core.run k (applyReset s') = .next { t with output := s'.output ++ es }

/-- A stream made only of accepted instructions and padding, in any number and order, is decoded instruction
by instruction from reset to a clean end: one step each, no diagnostic and no halt (R62, R104). The refused
forms are decision D6 of the spec. -/
def Obligations.AStreamOfAcceptedInstructionsEndsCleanly : Prop :=
  ∀ is : List Instr, (∀ i ∈ is, i.wellFormed = true ∧ i.accepted = true) →
    ∃ t, Sys2Proof.core.run is.length (load (is.flatMap encode)) = .next t ∧ CleanEnd t ∧
      t.output.length = (is.filter fun i => i ≠ .pad).length

/-! ## The spec's own `Decode` and `Step`, and the cursor -/

/-- R60 and R61: the model's step is the spec's `Step` on the five items of the block (R9), around its
combinational `Decode(win, avail)`, for every window that shows the bytes at the cursor; the sink takes what
that step emits, and the stream stays. The window is decision D2 of the spec, the halts D4 to D6. -/
def Obligations.StepIsTheWindowStep : Prop :=
  ∀ (s : State) (win : Vector Byte 4), s.pos ≤ s.len → WindowShows win s →
    step s = .next (windowStep win s)

/-- R24 and R63: the model's step is the step written as sequential `NextByte` calls, byte by byte: the same
record, the same `n` and the same failure offset. -/
def Obligations.StepIsTheCursorStep : Prop :=
  ∀ s : State, s.pos ≤ s.len → step s = .next (cursorStep s)

/-- R25 and R60: `Decode` does not depend on the window's bytes at index `avail` and above, and consumes
between 1 and `avail` bytes; with `Halt Truncated` it consumes all of them, and there are fewer than 4. -/
def Obligations.DecodeReadsOnlyTheValidWindowBytes : Prop :=
  ∀ (win win' : Vector Byte 4) (n : Nat), 1 ≤ n → n ≤ 4 →
    (∀ k : Fin 4, k.val < n → win[k] = win'[k]) →
    windowDecode win n = windowDecode win' n ∧
    1 ≤ (windowDecode win n).2 ∧ (windowDecode win n).2 ≤ n ∧
    ((windowDecode win n).1 = .halt .truncated → (windowDecode win n).2 = n ∧ n < 4)

/-! ## Text -/

/-- R40 to R42, R55, R56 and R58: the text of every operand form and of every kind of record, with the three
name tables written out. The texts of negative and zero displacements, of diagnostics and of failures are
decisions D8 and D9 of the spec (R56, R58). -/
def Obligations.LinesAreSpelledAsTheSyntaxSays : Prop :=
  ∀ (i : Fin 8) (dst src : Operand) (v : Value) (b : Byte) (o : Nat),
    let reg8 := ["al", "cl", "dl", "bl", "ah", "ch", "dh", "bh"][i]
    let reg16 := ["ax", "cx", "dx", "bx", "sp", "bp", "si", "di"][i]
    let base := ["bx+si", "bx+di", "bp+si", "bp+di", "si", "di", "bp", "bx"][i]
    let n := match v with | .i8 n => n | .i16 n => n
    textOf (.register i .w8) = reg8.toList ∧
    textOf (.register i .w16) = reg16.toList ∧
    textOf (.memory i none) = "[".toList ++ base.toList ++ "]".toList ∧
    textOf (.memory i (some v)) =
      "[".toList ++ base.toList ++ " + ".toList ++ dec n ++ "]".toList ∧
    textOf (.immediate v) = dec n ∧
    line (.insn dst src) = "mov ".toList ++ textOf dst ++ ", ".toList ++ textOf src ∧
    line (.unknown b) = "unknown opcode: ".toList ++ hex2 b ∧
    line (.failTruncated o) = "truncated at offset ".toList ++ dec o ∧
    line (.failUnsupportedForm b o) =
      "unsupported form: 8B ".toList ++ hex2 b ++ " at offset ".toList ++ dec o

/-- R57: `Dec` is the decimal spelling: reading its digits back gives the number, it has digits only, no
leading zero but for zero itself, and a minus sign exactly for negative values; `Hex2` is the two upper-case
hexadecimal digits. The spelling is decision D15 of the spec. -/
def Obligations.NumbersAreSpelledInDecimalAndHex : Prop :=
  (∀ n : Nat, Nat.ofDigitChars 10 (dec n) 0 = n ∧ (∀ c ∈ dec n, c.isDigit = true) ∧
    ((dec n).head? = some '0' → n = 0) ∧ dec 0 = ['0']) ∧
  (∀ n : Nat, 0 < n → dec (-(n : Int)) = '-' :: dec n) ∧
  ∀ b : Byte, ∃ h l : Fin 16, b.toNat = 16 * h.val + l.val ∧
    hex2 b = ["0123456789ABCDEF".toList[h]!, "0123456789ABCDEF".toList[l]!]

/-- R55: a line holds no line feed and no trailing space, so the lines of an output, one for each record,
can be told apart. -/
def Obligations.LinesHoldNoLineFeedOrTrailingSpace : Prop :=
  ∀ r : Record, '\n' ∉ line r ∧ line r ≠ [] ∧ (line r).getLast? ≠ some ' '

/-! ## The outer signals -/

/-- The outer signals show the step: `len` is the bytes consumed, at most 4; `out` is the record emitted, if
one is; `done` is the good end of a run (spec/00_scope.md section 6). The signals are decision D1 of the spec.
-/
def Obligations.SignalsShowTheStep : Prop :=
  ∀ s t, Legal s → step s = .next t →
    t.pos = s.pos + lenSignal s ∧ lenSignal s ≤ 4 ∧
    t.output = s.output ++ (outSignal s).toList.map (fun r => ⟨s.pos, lenSignal s, r⟩) ∧
    (outValidSignal s = true → lenSignal s ≠ 0) ∧ (doneSignal s = true ↔ Done s) ∧
    WindowShows (winSignal s) s

/-! ## The block's state -/

/-- R9 and R16: the five items, with the parameters `S` and `LEN`, are the whole state. Two machines that agree
on them take the same steps, however many, with the same records, whatever records their sinks hold: the log
beside the block is no state of it (log entry 1). The items beside the cursor are decision D4 of the spec. -/
def Obligations.TheFiveItemsAreTheWholeState : Prop :=
  ∀ (s s' t : State) (k : Nat), s'.toBlock = s.toBlock → s'.mem = s.mem → s'.len = s.len →
    Sys2Proof.core.run k s = .next t →
    ∃ es t', Sys2Proof.core.run k s' = .next t' ∧ t'.toBlock = t.toBlock ∧ t'.mem = t.mem ∧ t'.len = t.len ∧
      t.output = s.output ++ es ∧ t'.output = s'.output ++ es
end

