-- ==== Sys2Proof/Laws/PerInstr.lean ====
section
/-! SUPPORT. Facts about each instruction as syntax, one lemma per constructor of `Instr`. -/

namespace Sys2Proof.Laws

/-- The encoding of an instruction has as many bytes as the opcode table gives its row, 1 to 4 of them
(R34, R50). -/
def EncodeShape.Statement (i : Instr) : Prop :=
  (encode i).length = i.length ∧ 1 ≤ i.length ∧ i.length ≤ 4

theorem EncodeShape.pad :
    EncodeShape.Statement (.pad) :=
  by simp [EncodeShape.Statement, encode, Instr.length]

theorem EncodeShape.mov88Mem (reg rm : Fin 8) :
    EncodeShape.Statement (.mov88Mem reg rm) :=
  by simp [EncodeShape.Statement, encode, Instr.length]

theorem EncodeShape.mov88Disp8 (reg rm : Fin 8) (d : Byte) :
    EncodeShape.Statement (.mov88Disp8 reg rm d) :=
  by simp [EncodeShape.Statement, encode, Instr.length]

theorem EncodeShape.mov88Disp16 (reg rm : Fin 8) (d : Half) :
    EncodeShape.Statement (.mov88Disp16 reg rm d) :=
  by simp [EncodeShape.Statement, encode, Instr.length]

theorem EncodeShape.mov88Reg (reg rm : Fin 8) :
    EncodeShape.Statement (.mov88Reg reg rm) :=
  by simp [EncodeShape.Statement, encode, Instr.length]

theorem EncodeShape.mov89Mem (reg rm : Fin 8) :
    EncodeShape.Statement (.mov89Mem reg rm) :=
  by simp [EncodeShape.Statement, encode, Instr.length]

theorem EncodeShape.mov89Disp8 (reg rm : Fin 8) (d : Byte) :
    EncodeShape.Statement (.mov89Disp8 reg rm d) :=
  by simp [EncodeShape.Statement, encode, Instr.length]

theorem EncodeShape.mov89Disp16 (reg rm : Fin 8) (d : Half) :
    EncodeShape.Statement (.mov89Disp16 reg rm d) :=
  by simp [EncodeShape.Statement, encode, Instr.length]

theorem EncodeShape.mov89Reg (reg rm : Fin 8) :
    EncodeShape.Statement (.mov89Reg reg rm) :=
  by simp [EncodeShape.Statement, encode, Instr.length]

theorem EncodeShape.mov8AMem (reg rm : Fin 8) :
    EncodeShape.Statement (.mov8AMem reg rm) :=
  by simp [EncodeShape.Statement, encode, Instr.length]

theorem EncodeShape.mov8ADisp8 (reg rm : Fin 8) (d : Byte) :
    EncodeShape.Statement (.mov8ADisp8 reg rm d) :=
  by simp [EncodeShape.Statement, encode, Instr.length]

theorem EncodeShape.mov8ADisp16 (reg rm : Fin 8) (d : Half) :
    EncodeShape.Statement (.mov8ADisp16 reg rm d) :=
  by simp [EncodeShape.Statement, encode, Instr.length]

theorem EncodeShape.mov8AReg (reg rm : Fin 8) :
    EncodeShape.Statement (.mov8AReg reg rm) :=
  by simp [EncodeShape.Statement, encode, Instr.length]

theorem EncodeShape.mov8BMem (reg rm : Fin 8) :
    EncodeShape.Statement (.mov8BMem reg rm) :=
  by simp [EncodeShape.Statement, encode, Instr.length]

theorem EncodeShape.unsupported8BDisp8 (m : Byte) :
    EncodeShape.Statement (.unsupported8BDisp8 m) :=
  by simp [EncodeShape.Statement, encode, Instr.length]

theorem EncodeShape.unsupported8BDisp16 (m : Byte) :
    EncodeShape.Statement (.unsupported8BDisp16 m) :=
  by simp [EncodeShape.Statement, encode, Instr.length]

theorem EncodeShape.unsupported8BReg (m : Byte) :
    EncodeShape.Statement (.unsupported8BReg m) :=
  by simp [EncodeShape.Statement, encode, Instr.length]

theorem EncodeShape.movImm8 (r : Fin 8) (v : Byte) :
    EncodeShape.Statement (.movImm8 r v) :=
  by simp [EncodeShape.Statement, encode, Instr.length]

theorem EncodeShape.movImm16 (r : Fin 8) (v : Half) :
    EncodeShape.Statement (.movImm16 r v) :=
  by simp [EncodeShape.Statement, encode, Instr.length]

theorem EncodeShape.unknown01 (b : Byte) :
    EncodeShape.Statement (.unknown01 b) :=
  by simp [EncodeShape.Statement, encode, Instr.length]

theorem EncodeShape.unknown02 (b : Byte) :
    EncodeShape.Statement (.unknown02 b) :=
  by simp [EncodeShape.Statement, encode, Instr.length]

theorem EncodeShape.unknown04 (b : Byte) :
    EncodeShape.Statement (.unknown04 b) :=
  by simp [EncodeShape.Statement, encode, Instr.length]

theorem EncodeShape.unknown08 (b : Byte) :
    EncodeShape.Statement (.unknown08 b) :=
  by simp [EncodeShape.Statement, encode, Instr.length]

theorem EncodeShape.unknown10 (b : Byte) :
    EncodeShape.Statement (.unknown10 b) :=
  by simp [EncodeShape.Statement, encode, Instr.length]

theorem EncodeShape.unknown20 (b : Byte) :
    EncodeShape.Statement (.unknown20 b) :=
  by simp [EncodeShape.Statement, encode, Instr.length]

theorem EncodeShape.unknown40 (b : Byte) :
    EncodeShape.Statement (.unknown40 b) :=
  by simp [EncodeShape.Statement, encode, Instr.length]

theorem EncodeShape.unknown80 (b : Byte) :
    EncodeShape.Statement (.unknown80 b) :=
  by simp [EncodeShape.Statement, encode, Instr.length]

theorem EncodeShape.unknown8C (b : Byte) :
    EncodeShape.Statement (.unknown8C b) :=
  by simp [EncodeShape.Statement, encode, Instr.length]

theorem EncodeShape.unknown90 (b : Byte) :
    EncodeShape.Statement (.unknown90 b) :=
  by simp [EncodeShape.Statement, encode, Instr.length]

theorem EncodeShape.unknownA0 (b : Byte) :
    EncodeShape.Statement (.unknownA0 b) :=
  by simp [EncodeShape.Statement, encode, Instr.length]

theorem EncodeShape.unknownC0 (b : Byte) :
    EncodeShape.Statement (.unknownC0 b) :=
  by simp [EncodeShape.Statement, encode, Instr.length]

end Sys2Proof.Laws
end

