-- ==== Sys2Proof/Laws/Decode.lean ====
section
/-! SUPPORT. The fields of a ModRM byte, the two bytes of a 16-bit field, the classes of the dispatch table,
and what the decoder does on each class. -/

namespace Sys2Proof

/-! ### The ModRM byte -/

@[simp] theorem midIndex_modRMByte : ∀ (md : BitVec 2) (reg rm : Fin 8),
    midIndex (modRMByte md reg rm) = reg := by decide

@[simp] theorem lowIndex_modRMByte : ∀ (md : BitVec 2) (reg rm : Fin 8),
    lowIndex (modRMByte md reg rm) = rm := by decide

theorem modeOf_modRMByte : ∀ (md : BitVec 2) (reg rm : Fin 8),
    modeOf (modRMByte md reg rm) =
      if md = 0#2 then .memoryNoDisp else if md = 1#2 then .memoryDisp8
        else if md = 2#2 then .memoryDisp16 else .registerDirect := by decide

@[simp] theorem modeOf_modRMByte_noDisp (reg rm : Fin 8) :
    modeOf (modRMByte 0#2 reg rm) = .memoryNoDisp := by rw [modeOf_modRMByte]; rfl

@[simp] theorem modeOf_modRMByte_disp8 (reg rm : Fin 8) :
    modeOf (modRMByte 1#2 reg rm) = .memoryDisp8 := by rw [modeOf_modRMByte]; rfl

@[simp] theorem modeOf_modRMByte_disp16 (reg rm : Fin 8) :
    modeOf (modRMByte 2#2 reg rm) = .memoryDisp16 := by rw [modeOf_modRMByte]; rfl

@[simp] theorem modeOf_modRMByte_direct (reg rm : Fin 8) :
    modeOf (modRMByte 3#2 reg rm) = .registerDirect := by rw [modeOf_modRMByte]; rfl

/-- The `mod` field that each mode stands for (R39). -/
def Mode.bits : Mode → BitVec 2
  | .memoryNoDisp => 0#2
  | .memoryDisp8 => 1#2
  | .memoryDisp16 => 2#2
  | .registerDirect => 3#2

/-- The three fields give the byte back. -/
theorem modRMByte_fields : ∀ m : Byte, modRMByte (modeOf m).bits (midIndex m) (lowIndex m) = m := by
  decide

/-- The mode by the number in bits 7:6. -/
theorem modeOf_eq_iff : ∀ m : Byte,
    (modeOf m = .memoryNoDisp ↔ m.toNat / 64 = 0) ∧ (modeOf m = .memoryDisp8 ↔ m.toNat / 64 = 1) ∧
      (modeOf m = .memoryDisp16 ↔ m.toNat / 64 = 2) ∧
      (modeOf m = .registerDirect ↔ m.toNat / 64 = 3) := by decide

/-- The index fields by the number of the byte. -/
theorem indexes_val : ∀ m : Byte,
    (midIndex m).val = m.toNat / 8 % 8 ∧ (lowIndex m).val = m.toNat % 8 := by decide

/-- A byte with the fields `mod`, `reg` and `rm` splits into them. -/
theorem fields_of_toNat {m : Byte} {md : Nat} {reg rm : Fin 8}
    (h : m.toNat = 64 * md + 8 * reg.val + rm.val) :
    m.toNat / 64 = md ∧ midIndex m = reg ∧ lowIndex m = rm := by
  obtain ⟨h1, h2⟩ := indexes_val m
  have := reg.isLt
  have := rm.isLt
  exact ⟨by omega, Fin.ext (by omega), Fin.ext (by omega)⟩

/-- The ModRM bytes of the refused rows by their mode (R77 to R79). -/
theorem mode_of_block : ∀ m : Byte,
    (inBlock m 0xC0#8 0x40#8 = true ↔ modeOf m = .memoryDisp8) ∧
      (inBlock m 0xC0#8 0x80#8 = true ↔ modeOf m = .memoryDisp16) ∧
      (inBlock m 0xC0#8 0xC0#8 = true ↔ modeOf m = .registerDirect) := by decide

/-! ### 16-bit fields -/

theorem halfOf_toNat (lo hi : Byte) : (halfOf lo hi).toNat = lo.toNat + 256 * hi.toNat := by
  have hl := lo.isLt
  have hh := hi.isLt
  have hx : halfOf lo hi = BitVec.ofNat 16 (2 ^ 8 * hi.toNat + lo.toNat) := by
    apply BitVec.eq_of_toNat_eq
    rw [Nat.two_pow_add_eq_or_of_lt hl]
    simp [halfOf, Nat.shiftLeft_eq, Nat.or_comm, Nat.mul_comm]
  rw [hx, BitVec.toNat_ofNat]
  omega

@[simp] theorem halfOf_bytes (v : Half) : halfOf (loByte v) (hiByte v) = v := by
  apply BitVec.eq_of_toNat_eq
  have := v.isLt
  rw [halfOf_toNat]
  simp only [loByte, hiByte, BitVec.toNat_setWidth, BitVec.toNat_ushiftRight, Nat.shiftRight_eq_div_pow]
  omega

@[simp] theorem loByte_halfOf (lo hi : Byte) : loByte (halfOf lo hi) = lo := by
  apply BitVec.eq_of_toNat_eq
  have := lo.isLt
  simp only [loByte, BitVec.toNat_setWidth, halfOf_toNat]
  omega

@[simp] theorem hiByte_halfOf (lo hi : Byte) : hiByte (halfOf lo hi) = hi := by
  apply BitVec.eq_of_toNat_eq
  have := lo.isLt
  have := hi.isLt
  simp only [hiByte, BitVec.toNat_setWidth, BitVec.toNat_ushiftRight, Nat.shiftRight_eq_div_pow,
    halfOf_toNat]
  omega

/-! ### The classes -/

@[simp] theorem classify_00 : classify 0x00#8 = .pad := rfl
@[simp] theorem classify_88 : classify 0x88#8 = .movRmReg .w8 := rfl
@[simp] theorem classify_89 : classify 0x89#8 = .movRmReg .w16 := rfl
@[simp] theorem classify_8A : classify 0x8A#8 = .movRegRm .w8 := rfl
@[simp] theorem classify_8B : classify 0x8B#8 = .movRegRm .w16 := rfl

@[simp] theorem classify_immediate8 : ∀ r : Fin 8,
    classify (0xB0#8 ||| BitVec.ofNat 8 r.val) = .movRegImm .w8 := by decide

@[simp] theorem classify_immediate16 : ∀ r : Fin 8,
    classify (0xB8#8 ||| BitVec.ofNat 8 r.val) = .movRegImm .w16 := by decide

@[simp] theorem lowIndex_immediate8 : ∀ r : Fin 8,
    lowIndex (0xB0#8 ||| BitVec.ofNat 8 r.val) = r := by decide

@[simp] theorem lowIndex_immediate16 : ∀ r : Fin 8,
    lowIndex (0xB8#8 ||| BitVec.ofNat 8 r.val) = r := by decide

/-- The leading bytes of each class, as numbers (R49). -/
theorem classify_eq_iff : ∀ b : Byte,
    (classify b = .pad ↔ b.toNat = 0) ∧
    (classify b = .unknown ↔
      (1 ≤ b.toNat ∧ b.toNat ≤ 0x87) ∨ (0x8C ≤ b.toNat ∧ b.toNat ≤ 0xAF) ∨ 0xC0 ≤ b.toNat) ∧
    (classify b = .movRmReg .w8 ↔ b.toNat = 0x88) ∧ (classify b = .movRmReg .w16 ↔ b.toNat = 0x89) ∧
    (classify b = .movRegRm .w8 ↔ b.toNat = 0x8A) ∧ (classify b = .movRegRm .w16 ↔ b.toNat = 0x8B) ∧
    (classify b = .movRegImm .w8 ↔ 0xB0 ≤ b.toNat ∧ b.toNat ≤ 0xB7) ∧
    (classify b = .movRegImm .w16 ↔ 0xB8 ≤ b.toNat ∧ b.toNat ≤ 0xBF) := by decide

/-- The leading byte of a class, written with its index where it has one. -/
theorem byte_of_classify : ∀ b : Byte,
    (classify b = .pad → b = 0x00#8) ∧
    (classify b = .movRmReg .w8 → b = 0x88#8) ∧ (classify b = .movRmReg .w16 → b = 0x89#8) ∧
    (classify b = .movRegRm .w8 → b = 0x8A#8) ∧ (classify b = .movRegRm .w16 → b = 0x8B#8) ∧
    (classify b = .movRegImm .w8 → b = 0xB0#8 ||| BitVec.ofNat 8 (lowIndex b).val) ∧
    (classify b = .movRegImm .w16 → b = 0xB8#8 ||| BitVec.ofNat 8 (lowIndex b).val) := by decide

/-- The row of an unknown byte: well formed, one byte long, and its encoding is the byte. -/
theorem unknownRow_spec : ∀ b : Byte, classify b = .unknown →
    (unknownRow b).wellFormed = true ∧ (unknownRow b).length = 1 ∧ encode (unknownRow b) = [b] := by
  decide

/-- Each row of unknown opcodes holds bytes of class `unknown` that select it (R83). -/
theorem unknownRow_of_block : ∀ b : Byte,
    (inBlock b 0xFF#8 0x01#8 = true → classify b = .unknown ∧ unknownRow b = .unknown01 b) ∧
    (inBlock b 0xFE#8 0x02#8 = true → classify b = .unknown ∧ unknownRow b = .unknown02 b) ∧
    (inBlock b 0xFC#8 0x04#8 = true → classify b = .unknown ∧ unknownRow b = .unknown04 b) ∧
    (inBlock b 0xF8#8 0x08#8 = true → classify b = .unknown ∧ unknownRow b = .unknown08 b) ∧
    (inBlock b 0xF0#8 0x10#8 = true → classify b = .unknown ∧ unknownRow b = .unknown10 b) ∧
    (inBlock b 0xE0#8 0x20#8 = true → classify b = .unknown ∧ unknownRow b = .unknown20 b) ∧
    (inBlock b 0xC0#8 0x40#8 = true → classify b = .unknown ∧ unknownRow b = .unknown40 b) ∧
    (inBlock b 0xF8#8 0x80#8 = true → classify b = .unknown ∧ unknownRow b = .unknown80 b) ∧
    (inBlock b 0xFC#8 0x8C#8 = true → classify b = .unknown ∧ unknownRow b = .unknown8C b) ∧
    (inBlock b 0xF0#8 0x90#8 = true → classify b = .unknown ∧ unknownRow b = .unknown90 b) ∧
    (inBlock b 0xF0#8 0xA0#8 = true → classify b = .unknown ∧ unknownRow b = .unknownA0 b) ∧
    (inBlock b 0xC0#8 0xC0#8 = true → classify b = .unknown ∧ unknownRow b = .unknownC0 b) := by
  decide

/-! ### The decoder, class by class -/

@[simp] theorem decode_nil : decode [] = .error .endOfStream := rfl

section
variable {b : Byte} (rest : List Byte)

theorem decode_pad (h : classify b = .pad) : decode (b :: rest) = .ok .pad := by
  simp only [decode, h]

theorem decode_unknown (h : classify b = .unknown) : decode (b :: rest) = .ok (unknownRow b) := by
  simp only [decode, h]

theorem decode_movRmReg {w : Width} (h : classify b = .movRmReg w) (m : Byte) :
    decode (b :: m :: rest) = decodeMovRmReg w m rest := by
  simp only [decode, h]

theorem decode_movRegRm {w : Width} (h : classify b = .movRegRm w) (m : Byte) :
    decode (b :: m :: rest) = decodeMovRegRm w m rest := by
  simp only [decode, h]

theorem decode_immediate8 (h : classify b = .movRegImm .w8) (v : Byte) :
    decode (b :: v :: rest) = .ok (.movImm8 (lowIndex b) v) := by
  simp only [decode, h]

theorem decode_immediate16 (h : classify b = .movRegImm .w16) (lo hi : Byte) :
    decode (b :: lo :: hi :: rest) = .ok (.movImm16 (lowIndex b) (halfOf lo hi)) := by
  simp only [decode, h]

end

/-! ### Lengths -/

theorem encode_length (i : Instr) : (encode i).length = i.length := by cases i <;> rfl

theorem length_bounds (i : Instr) : 1 ≤ i.length ∧ i.length ≤ 4 := by
  cases i <;> simp [Instr.length]

end Sys2Proof
end

