-- ==== Sys2Proof/Laws/Format.lean ====
section
/-! SUPPORT. The words of a line, spelled out as strings. -/

namespace Sys2Proof.Machine

theorem movWord_eq : movWord = "mov ".toList := by decide
theorem commaWord_eq : commaWord = ", ".toList := by decide
theorem openBracket_eq : openBracket = "[".toList := by decide
theorem closeBracket_eq : closeBracket = "]".toList := by decide
theorem plusWord_eq : plusWord = " + ".toList := by decide
theorem unknownWords_eq : unknownWords = "unknown opcode: ".toList := by decide
theorem truncatedWords_eq : truncatedWords = "truncated at offset ".toList := by decide
theorem unsupportedWords_eq : unsupportedWords = "unsupported form: 8B ".toList := by decide
theorem atOffsetWords_eq : atOffsetWords = " at offset ".toList := by decide

section
variable (i : Fin 8) (w : Width) (v : Value) (dst src : Operand) (b : Byte) (o : Nat)

theorem textOf_register : textOf (.register i w) = (regName w i).toList := rfl

theorem textOf_memory : textOf (.memory i none) =
    openBracket ++ baseNames[i].toList ++ closeBracket := rfl

theorem textOf_memory_disp : textOf (.memory i (some v)) =
    openBracket ++ baseNames[i].toList ++ plusWord ++ dec v.toInt ++ closeBracket := rfl

theorem textOf_immediate : textOf (.immediate v) = dec v.toInt := rfl

theorem line_insn : line (.insn dst src) = movWord ++ textOf dst ++ commaWord ++ textOf src := rfl

theorem line_unknown : line (.unknown b) = unknownWords ++ hex2 b := rfl

theorem line_failTruncated : line (.failTruncated o) = truncatedWords ++ dec o := rfl

theorem line_failUnsupportedForm : line (.failUnsupportedForm b o) =
    unsupportedWords ++ hex2 b ++ atOffsetWords ++ dec o := rfl

end

end Sys2Proof.Machine
end

