-- ==== Sys2Proof/Laws/State.lean ====
section
/-! SUPPORT. What each update of the state does to each field: one lemma per field per update. -/

namespace Sys2Proof.Machine

variable (s : State)

/-! ### `advance` -/

@[simp] theorem advance_pos (n : Nat) : (advance n s).pos = s.pos + n := rfl
@[simp] theorem advance_halted (n : Nat) : (advance n s).halted = s.halted := rfl
@[simp] theorem advance_faultKind (n : Nat) : (advance n s).faultKind = s.faultKind := rfl
@[simp] theorem advance_faultOffset (n : Nat) : (advance n s).faultOffset = s.faultOffset := rfl
@[simp] theorem advance_faultStart (n : Nat) : (advance n s).faultStart = s.faultStart := rfl
@[simp] theorem advance_mem (n : Nat) : (advance n s).mem = s.mem := rfl
@[simp] theorem advance_len (n : Nat) : (advance n s).len = s.len := rfl
@[simp] theorem advance_output (n : Nat) : (advance n s).output = s.output := rfl

/-! ### `emit` -/

@[simp] theorem emit_pos (r : Record) (n : Nat) : (emit r n s).pos = s.pos := rfl
@[simp] theorem emit_halted (r : Record) (n : Nat) : (emit r n s).halted = s.halted := rfl
@[simp] theorem emit_faultKind (r : Record) (n : Nat) : (emit r n s).faultKind = s.faultKind := rfl
@[simp] theorem emit_faultOffset (r : Record) (n : Nat) : (emit r n s).faultOffset = s.faultOffset := rfl
@[simp] theorem emit_faultStart (r : Record) (n : Nat) : (emit r n s).faultStart = s.faultStart := rfl
@[simp] theorem emit_mem (r : Record) (n : Nat) : (emit r n s).mem = s.mem := rfl
@[simp] theorem emit_len (r : Record) (n : Nat) : (emit r n s).len = s.len := rfl
@[simp] theorem emit_output (r : Record) (n : Nat) : (emit r n s).output = s.output ++ [⟨s.pos, n, r⟩] := rfl

/-! ### `retire` -/

@[simp] theorem retire_pos (r : Record) (n : Nat) : (retire r n s).pos = s.pos + n := rfl
@[simp] theorem retire_halted (r : Record) (n : Nat) : (retire r n s).halted = s.halted := rfl
@[simp] theorem retire_faultKind (r : Record) (n : Nat) : (retire r n s).faultKind = s.faultKind := rfl
@[simp] theorem retire_faultOffset (r : Record) (n : Nat) : (retire r n s).faultOffset = s.faultOffset := rfl
@[simp] theorem retire_faultStart (r : Record) (n : Nat) : (retire r n s).faultStart = s.faultStart := rfl
@[simp] theorem retire_mem (r : Record) (n : Nat) : (retire r n s).mem = s.mem := rfl
@[simp] theorem retire_len (r : Record) (n : Nat) : (retire r n s).len = s.len := rfl
@[simp] theorem retire_output (r : Record) (n : Nat) : (retire r n s).output = s.output ++ [⟨s.pos, n, r⟩] := rfl

/-! ### `halt` -/

@[simp] theorem halt_pos (c : Cause) (o : Nat) : (halt c o s).pos = s.pos := rfl
@[simp] theorem halt_halted (c : Cause) (o : Nat) : (halt c o s).halted = true := rfl
@[simp] theorem halt_faultKind (c : Cause) (o : Nat) : (halt c o s).faultKind = c := rfl
@[simp] theorem halt_faultOffset (c : Cause) (o : Nat) : (halt c o s).faultOffset = o := rfl
@[simp] theorem halt_faultStart (c : Cause) (o : Nat) : (halt c o s).faultStart = s.pos := rfl
@[simp] theorem halt_mem (c : Cause) (o : Nat) : (halt c o s).mem = s.mem := rfl
@[simp] theorem halt_len (c : Cause) (o : Nat) : (halt c o s).len = s.len := rfl
@[simp] theorem halt_output (c : Cause) (o : Nat) : (halt c o s).output = s.output := rfl

/-! ### `applyReset` -/

@[simp] theorem applyReset_pos : (applyReset s).pos = 0 := rfl
@[simp] theorem applyReset_halted : (applyReset s).halted = false := rfl
@[simp] theorem applyReset_faultKind : (applyReset s).faultKind = .none := rfl
@[simp] theorem applyReset_faultOffset : (applyReset s).faultOffset = 0 := rfl
@[simp] theorem applyReset_faultStart : (applyReset s).faultStart = 0 := rfl
@[simp] theorem applyReset_mem : (applyReset s).mem = s.mem := rfl
@[simp] theorem applyReset_len : (applyReset s).len = s.len := rfl
@[simp] theorem applyReset_output : (applyReset s).output = s.output := rfl

/-! ### `clearStatus` -/

@[simp] theorem clearStatus_pos : (clearStatus s).pos = s.pos := rfl
@[simp] theorem clearStatus_halted : (clearStatus s).halted = false := rfl
@[simp] theorem clearStatus_faultKind : (clearStatus s).faultKind = .none := rfl
@[simp] theorem clearStatus_faultOffset : (clearStatus s).faultOffset = 0 := rfl
@[simp] theorem clearStatus_faultStart : (clearStatus s).faultStart = 0 := rfl
@[simp] theorem clearStatus_mem : (clearStatus s).mem = s.mem := rfl
@[simp] theorem clearStatus_len : (clearStatus s).len = s.len := rfl
@[simp] theorem clearStatus_output : (clearStatus s).output = s.output := rfl

/-! ### `placeAtCursor` -/

@[simp] theorem placeAtCursor_pos (bs : List Byte) : (placeAtCursor bs s).pos = s.pos := rfl
@[simp] theorem placeAtCursor_halted (bs : List Byte) : (placeAtCursor bs s).halted = false := rfl
@[simp] theorem placeAtCursor_faultKind (bs : List Byte) : (placeAtCursor bs s).faultKind = .none := rfl
@[simp] theorem placeAtCursor_faultOffset (bs : List Byte) : (placeAtCursor bs s).faultOffset = 0 := rfl
@[simp] theorem placeAtCursor_faultStart (bs : List Byte) : (placeAtCursor bs s).faultStart = 0 := rfl
@[simp] theorem placeAtCursor_mem (bs : List Byte) : (placeAtCursor bs s).mem = s.mem.writeBytes s.pos bs := rfl
@[simp] theorem placeAtCursor_len (bs : List Byte) : (placeAtCursor bs s).len = max s.len (s.pos + bs.length) := rfl
@[simp] theorem placeAtCursor_output (bs : List Byte) : (placeAtCursor bs s).output = s.output := rfl

/-! ### `takeException`, `unknownOpcode` -/

@[simp] theorem take_unknownOpcode_pos (b : Byte) :
    (takeException (.unknownOpcode b) s).pos = s.pos + 1 := rfl
@[simp] theorem take_unknownOpcode_halted (b : Byte) :
    (takeException (.unknownOpcode b) s).halted = s.halted := rfl
@[simp] theorem take_unknownOpcode_faultKind (b : Byte) :
    (takeException (.unknownOpcode b) s).faultKind = s.faultKind := rfl
@[simp] theorem take_unknownOpcode_faultOffset (b : Byte) :
    (takeException (.unknownOpcode b) s).faultOffset = s.faultOffset := rfl
@[simp] theorem take_unknownOpcode_faultStart (b : Byte) :
    (takeException (.unknownOpcode b) s).faultStart = s.faultStart := rfl
@[simp] theorem take_unknownOpcode_mem (b : Byte) :
    (takeException (.unknownOpcode b) s).mem = s.mem := rfl
@[simp] theorem take_unknownOpcode_len (b : Byte) :
    (takeException (.unknownOpcode b) s).len = s.len := rfl
@[simp] theorem take_unknownOpcode_output (b : Byte) :
    (takeException (.unknownOpcode b) s).output = s.output ++ [⟨s.pos, 1, .unknown b⟩] := rfl

/-! ### `takeException`, `truncated` -/

@[simp] theorem take_truncated_pos (n : Nat) :
    (takeException (.truncated n) s).pos = s.pos + n := rfl
@[simp] theorem take_truncated_halted (n : Nat) :
    (takeException (.truncated n) s).halted = true := rfl
@[simp] theorem take_truncated_faultKind (n : Nat) :
    (takeException (.truncated n) s).faultKind = .truncated := rfl
@[simp] theorem take_truncated_faultOffset (n : Nat) :
    (takeException (.truncated n) s).faultOffset = s.pos + n := rfl
@[simp] theorem take_truncated_faultStart (n : Nat) :
    (takeException (.truncated n) s).faultStart = s.pos := rfl
@[simp] theorem take_truncated_mem (n : Nat) :
    (takeException (.truncated n) s).mem = s.mem := rfl
@[simp] theorem take_truncated_len (n : Nat) :
    (takeException (.truncated n) s).len = s.len := rfl
@[simp] theorem take_truncated_output (n : Nat) :
    (takeException (.truncated n) s).output = s.output ++ [⟨s.pos, n, .failTruncated (s.pos + n)⟩] := rfl

/-! ### `takeException`, `unsupportedForm` -/

@[simp] theorem take_unsupportedForm_pos (m : Byte) :
    (takeException (.unsupportedForm m) s).pos = s.pos + 2 := rfl
@[simp] theorem take_unsupportedForm_halted (m : Byte) :
    (takeException (.unsupportedForm m) s).halted = true := rfl
@[simp] theorem take_unsupportedForm_faultKind (m : Byte) :
    (takeException (.unsupportedForm m) s).faultKind = .unsupportedForm := rfl
@[simp] theorem take_unsupportedForm_faultOffset (m : Byte) :
    (takeException (.unsupportedForm m) s).faultOffset = s.pos + 1 := rfl
@[simp] theorem take_unsupportedForm_faultStart (m : Byte) :
    (takeException (.unsupportedForm m) s).faultStart = s.pos := rfl
@[simp] theorem take_unsupportedForm_mem (m : Byte) :
    (takeException (.unsupportedForm m) s).mem = s.mem := rfl
@[simp] theorem take_unsupportedForm_len (m : Byte) :
    (takeException (.unsupportedForm m) s).len = s.len := rfl
@[simp] theorem take_unsupportedForm_output (m : Byte) :
    (takeException (.unsupportedForm m) s).output = s.output ++ [⟨s.pos, 2, .failUnsupportedForm m (s.pos + 1)⟩] := rfl

/-! ### The block's five items as one (R9) -/

@[simp] theorem advance_toBlock (n : Nat) : (advance n s).toBlock = { s.toBlock with pos := s.pos + n } := rfl
@[simp] theorem emit_toBlock (r : Record) (n : Nat) : (emit r n s).toBlock = s.toBlock := rfl
@[simp] theorem retire_toBlock (r : Record) (n : Nat) :
    (retire r n s).toBlock = { s.toBlock with pos := s.pos + n } := rfl
@[simp] theorem halt_toBlock (c : Cause) (o : Nat) :
    (halt c o s).toBlock = ⟨s.pos, true, c, o, s.pos⟩ := rfl
@[simp] theorem applyReset_toBlock : (applyReset s).toBlock = Block.reset := rfl
@[simp] theorem clearStatus_toBlock :
    (clearStatus s).toBlock = { Block.reset with pos := s.pos } := rfl
@[simp] theorem placeAtCursor_toBlock (bs : List Byte) :
    (placeAtCursor bs s).toBlock = { Block.reset with pos := s.pos } := rfl

/-! ### Reset and `load` -/

@[simp] theorem Block.reset_pos : Block.reset.pos = 0 := rfl
@[simp] theorem Block.reset_halted : Block.reset.halted = false := rfl
@[simp] theorem Block.reset_faultKind : Block.reset.faultKind = .none := rfl
@[simp] theorem Block.reset_faultOffset : Block.reset.faultOffset = 0 := rfl
@[simp] theorem Block.reset_faultStart : Block.reset.faultStart = 0 := rfl
@[simp] theorem State.reset_toBlock : State.reset.toBlock = Block.reset := rfl
@[simp] theorem State.reset_mem : State.reset.mem = [] := rfl
@[simp] theorem State.reset_len : State.reset.len = 0 := rfl
@[simp] theorem State.reset_output : State.reset.output = [] := rfl
@[simp] theorem load_toBlock (bs : List Byte) : (load bs).toBlock = Block.reset := rfl
@[simp] theorem load_mem (bs : List Byte) : (load bs).mem = Memory.writeBytes [] 0 bs := rfl
@[simp] theorem load_len (bs : List Byte) : (load bs).len = bs.length := rfl
@[simp] theorem load_output (bs : List Byte) : (load bs).output = [] := rfl

end Sys2Proof.Machine
end

