-- ==== Sys2Proof/Laws/Memory.lean ====
section
/-! SUPPORT. The stream's list: every operation keeps its canonical form, a byte written is the byte read,
and a write leaves every other address alone. -/

namespace Sys2Proof.Machine.Memory

/-! ### The canonical form, entry by entry -/

@[simp] theorem wf_nil : Memory.wf [] = true := rfl

theorem wf_cons (c : Host.Cell) (m : Memory) :
    Memory.wf (c :: m) = true ↔
      (∀ d ∈ m, c.1 < d.1) ∧ c.2 ≠ Config.unlistedByte ∧ Memory.wf m = true := by
  simp only [Memory.wf, Bool.and_eq_true, decide_eq_true_eq, List.pairwise_cons, List.all_cons,
    bne_iff_ne]
  tauto

theorem wf_push {a : Nat} {b : Byte} {m : Memory} (h : m.wf = true) (ha : ∀ d ∈ m, a < d.1) :
    (Memory.push a b m).wf = true := by
  unfold Memory.push
  split
  · exact h
  · exact (wf_cons _ _).2 ⟨ha, ‹_›, h⟩

theorem mem_push {a : Nat} {b : Byte} {m : Memory} {c : Host.Cell} (h : c ∈ Memory.push a b m) :
    c = (a, b) ∨ c ∈ m := by
  unfold Memory.push at h
  split at h
  · exact .inr h
  · simpa using h

/-- A listed entry after a write is the one written or one listed before. -/
theorem mem_write {m : Memory} {a : Nat} {b : Byte} {c : Host.Cell} (h : c ∈ m.write a b) :
    c = (a, b) ∨ c ∈ m := by
  induction m with
  | nil => simpa using mem_push h
  | cons d ds ih =>
    unfold Memory.write at h
    split at h
    · exact mem_push h
    · split at h
      · exact (mem_push h).imp_right (List.mem_cons_of_mem _)
      · rcases List.mem_cons.1 h with rfl | h
        · exact .inr (by simp)
        · exact (ih h).imp_right (List.mem_cons_of_mem _)

/-- A write keeps the canonical form. -/
theorem wf_write {m : Memory} (a : Nat) (b : Byte) (h : m.wf = true) : (m.write a b).wf = true := by
  induction m with
  | nil => exact wf_push rfl (by simp)
  | cons d ds ih =>
    obtain ⟨hlt, hne, hds⟩ := (wf_cons _ _).1 h
    unfold Memory.write
    split
    · next hd =>
      refine wf_push h fun e he => ?_
      rcases List.mem_cons.1 he with rfl | he
      · exact hd
      · exact hd.trans (hlt e he)
    · next hd =>
      split
      · next hda => exact wf_push hds fun e he => hda ▸ hlt e he
      · next hda =>
        refine (wf_cons _ _).2 ⟨fun e he => ?_, hne, ih hds⟩
        rcases mem_write he with rfl | he
        · simp only; omega
        · exact hlt e he

theorem wf_writeBytes (bs : List Byte) :
    ∀ {m : Memory} (a : Nat), m.wf = true → (m.writeBytes a bs).wf = true := by
  induction bs with
  | nil => exact fun _ h => h
  | cons b bs ih => exact fun a h => ih (a + 1) (wf_write a b h)

/-- What several writes list was listed before or lies where they wrote. -/
theorem mem_writeBytes (bs : List Byte) {c : Host.Cell} :
    ∀ {m : Memory} (a : Nat), c ∈ m.writeBytes a bs →
      c ∈ m ∨ (a ≤ c.1 ∧ c.1 < a + bs.length) := by
  induction bs with
  | nil => exact fun _ h => .inl h
  | cons b bs ih =>
    intro m a h
    rcases ih (a + 1) h with h | h
    · rcases mem_write h with rfl | h
      · exact .inr ⟨Nat.le_refl _, by simp⟩
      · exact .inl h
    · exact .inr ⟨by omega, by simp only [List.length_cons]; omega⟩

/-! ### Reading -/

@[simp] theorem read_nil (a : Nat) : Memory.read [] a = Config.unlistedByte := rfl

theorem read_of_lt {m : Memory} {a : Nat} (h : ∀ d ∈ m, a < d.1) :
    m.read a = Config.unlistedByte := by
  induction m with
  | nil => rfl
  | cons d ds ih =>
    have := h d (by simp)
    rw [Memory.read, if_neg (by omega)]
    exact ih fun e he => h e (by simp [he])

theorem read_push {m : Memory} {a x : Nat} {b : Byte} (h : ∀ d ∈ m, a < d.1) :
    (Memory.push a b m).read x = if x = a then b else m.read x := by
  unfold Memory.push
  split
  · next hb =>
    split
    · next hx => rw [hx, hb, read_of_lt h]
    · rfl
  · simp only [Memory.read, eq_comm]

/-- Reading after a write: the byte written at its address, and every other address as before. -/
theorem read_write {m : Memory} (h : m.wf = true) (a x : Nat) (b : Byte) :
    (m.write a b).read x = if x = a then b else m.read x := by
  induction m with
  | nil => exact read_push (by simp)
  | cons d ds ih =>
    obtain ⟨hlt, -, hds⟩ := (wf_cons _ _).1 h
    unfold Memory.write
    split
    · next hd =>
      refine read_push fun e he => ?_
      rcases List.mem_cons.1 he with rfl | he
      · exact hd
      · exact hd.trans (hlt e he)
    · split
      · next hda =>
        subst hda
        rw [read_push hlt, Memory.read]
        split
        · rfl
        · rw [if_neg (fun h => ‹¬ x = d.1› h.symm)]
      · next hda =>
        simp only [Memory.read, ih hds]
        split
        · next hx => rw [if_neg (by omega)]
        · rfl

/-- Reading after several writes at consecutive addresses. -/
theorem read_writeBytes (bs : List Byte) :
    ∀ {m : Memory} (a x : Nat), m.wf = true →
      (m.writeBytes a bs).read x =
        if a ≤ x then (bs[x - a]?).getD (m.read x) else m.read x := by
  induction bs with
  | nil => intro m a x _; simp [Memory.writeBytes]
  | cons b bs ih =>
    intro m a x h
    rw [Memory.writeBytes, ih (a + 1) x (wf_write a b h), read_write h]
    by_cases hx : a ≤ x
    · rcases Nat.eq_or_lt_of_le hx with rfl | hlt
      · simp
      · have hs : x - a = (x - (a + 1)) + 1 := by omega
        rw [if_pos (by omega), if_pos hx, if_neg (by omega), hs, List.getElem?_cons_succ]
    · rw [if_neg (by omega), if_neg hx, if_neg (by omega)]

/-! ### Reading a run of bytes -/

@[simp] theorem length_readBytes (m : Memory) (n : Nat) : ∀ a, (m.readBytes a n).length = n := by
  induction n with
  | zero => exact fun _ => rfl
  | succ n ih => exact fun a => by simp [Memory.readBytes, ih]

@[simp] theorem readBytes_zero (m : Memory) (a : Nat) : m.readBytes a 0 = [] := rfl

theorem readBytes_succ (m : Memory) (a n : Nat) :
    m.readBytes a (n + 1) = m.read a :: m.readBytes (a + 1) n := rfl

theorem getElem?_readBytes (m : Memory) (n : Nat) :
    ∀ a k, (m.readBytes a n)[k]? = if k < n then some (m.read (a + k)) else none := by
  induction n with
  | zero => intro a k; simp
  | succ n ih =>
    intro a k
    cases k with
    | zero => simp [Memory.readBytes]
    | succ k => simp [Memory.readBytes, ih, Nat.add_assoc, Nat.add_comm 1 k]

theorem readBytes_congr {m m' : Memory} {a n : Nat}
    (h : ∀ k, k < n → m.read (a + k) = m'.read (a + k)) : m.readBytes a n = m'.readBytes a n := by
  refine List.ext_getElem? fun k => ?_
  rw [getElem?_readBytes, getElem?_readBytes]
  split
  · rw [h k ‹_›]
  · rfl

/-- The bytes of a longer run are those of its first part and those of the rest. -/
theorem readBytes_add (m : Memory) (n k : Nat) :
    ∀ a, m.readBytes a (n + k) = m.readBytes a n ++ m.readBytes (a + n) k := by
  induction n with
  | zero => intro a; simp
  | succ n ih =>
    intro a
    rw [Nat.succ_add, readBytes_succ, readBytes_succ, ih, List.cons_append]
    congr 3
    omega

end Sys2Proof.Machine.Memory

namespace Sys2Proof.Machine

/-! ### Bytes of the stream -/

theorem byteAt_eq_some {s : State} {a : Nat} {b : Byte} :
    byteAt s a = some b ↔ a < s.len ∧ s.mem.read a = b := by
  unfold byteAt
  split <;> simp [*]

theorem byteAt_of_lt {s : State} {a : Nat} (h : a < s.len) : byteAt s a = some (s.mem.read a) := by
  simp [byteAt, h]

theorem memRead_eq_some {s : State} {a n : Nat} {bs : List Byte} :
    memRead s a n = some bs ↔ a + n ≤ s.len ∧ s.mem.readBytes a n = bs := by
  unfold memRead
  split <;> simp [*]

end Sys2Proof.Machine
end

