-- ==== Sys2Proof/Laws/Step.lean ====
section
/-! SUPPORT. The window, how many bytes a decode takes of it, and everything one step can do. -/

namespace Sys2Proof

/-! ### How many bytes a decode takes -/

/-- A decode takes no more bytes than there are. -/
theorem length_le_of_decode {bs : List Byte} {i : Instr} (h : decode bs = .ok i) :
    i.length ≤ bs.length := by
  unfold decode at h
  split at h
  · cases h
  · split at h
    case h_2 hc => cases h; simp [(unknownRow_spec _ hc).2.1]
    case h_8 =>
      unfold decodeMovRmReg at h
      split at h <;> cases h <;> simp [Instr.length]
    case h_9 =>
      unfold decodeMovRegRm at h
      split at h <;> cases h <;> simp [Instr.length]
    all_goals cases h <;> simp [Instr.length]

/-- A list rejected as truncated holds 1 to 3 bytes. -/
theorem length_of_decode_truncated {bs : List Byte} (h : decode bs = .error .truncated) :
    1 ≤ bs.length ∧ bs.length ≤ 3 := by
  unfold decode at h
  split at h
  · cases h
  · split at h
    case h_8 =>
      unfold decodeMovRmReg at h
      split at h <;> cases h <;> simp
    case h_9 =>
      unfold decodeMovRegRm at h
      split at h <;> cases h <;> simp
    all_goals cases h <;> simp

/-- Only the empty list is rejected for having no leading byte. -/
theorem eq_nil_of_decode_endOfStream {bs : List Byte} (h : decode bs = .error .endOfStream) :
    bs = [] := by
  unfold decode at h
  split at h
  · rfl
  · split at h
    case h_8 =>
      unfold decodeMovRmReg at h
      split at h <;> cases h
    case h_9 =>
      unfold decodeMovRegRm at h
      split at h <;> cases h
    all_goals cases h

end Sys2Proof

namespace Sys2Proof.Machine

/-! ### The window -/

@[simp] theorem window_length (s : State) : (window s).length = avail s := by simp [window]

theorem avail_eq (s : State) : avail s = min 4 (s.len - s.pos) := rfl

theorem window_getElem? (s : State) (k : Nat) :
    (window s)[k]? = if k < avail s then some (s.mem.read (s.pos + k)) else none :=
  Memory.getElem?_readBytes ..

theorem window_eq_nil {s : State} : window s = [] ↔ s.len ≤ s.pos := by
  rw [← List.length_eq_zero_iff, window_length, avail_eq]
  omega

/-- The window begins with the leading byte. -/
theorem window_eq_cons {s : State} (h : s.pos < s.len) :
    window s = s.mem.read s.pos :: s.mem.readBytes (s.pos + 1) (avail s - 1) := by
  have : avail s = avail s - 1 + 1 := by rw [avail_eq]; omega
  rw [window, this, Memory.readBytes_succ]
  rfl

/-! ### What each meaning answers -/

/-- No meaning stops. -/
theorem exec_answers (i : Instr) (s : State) : ∃ t, exec i s = .next t := by
  cases i <;> exact ⟨_, rfl⟩

/-- Whatever row an unknown byte selects, its meaning takes `UnknownOpcode` (R83). -/
theorem exec_unknownRow (b : Byte) (s : State) :
    exec (unknownRow b) s = .next (takeException (.unknownOpcode b) s) := by
  unfold unknownRow
  iterate 11
    refine (apply_ite (exec · s) _ _ _).trans ?_
    refine ite_eq_iff'.2 ⟨fun _ => rfl, fun _ => ?_⟩
  rfl

/-! ### The step, case by case -/

theorem step_of_halted {s : State} (h : s.halted = true) : step s = .next s := by
  simp [step, runStep, h]

theorem step_of_end {s : State} (h : s.halted = false) (hp : s.pos = s.len) : step s = .next s := by
  have : window s = [] := window_eq_nil.2 (by omega)
  simp [step, runStep, h, hp, this]

theorem step_of_past_end {s : State} (h : s.halted = false) (hp : s.len < s.pos) :
    step s = .fault .cursorPastEnd := by
  simp [step, runStep, h, hp]

theorem step_of_decode {s : State} {i : Instr} (h : s.halted = false) (hp : s.pos ≤ s.len)
    (hd : decode (window s) = .ok i) : step s = exec i s := by
  simp [step, runStep, h, Nat.not_lt.2 hp, hd]

theorem step_of_truncated {s : State} (h : s.halted = false) (hp : s.pos ≤ s.len)
    (hd : decode (window s) = .error .truncated) :
    step s = .next (takeException (.truncated (s.len - s.pos)) s) := by
  have hl := (length_of_decode_truncated hd).2
  rw [window_length, avail_eq] at hl
  have : avail s = s.len - s.pos := by rw [avail_eq]; omega
  simp [step, runStep, h, Nat.not_lt.2 hp, hd, this]

/-- Everything a step can do. -/
theorem step_cases (s : State) :
    (s.halted = true ∧ step s = .next s) ∨
    (s.halted = false ∧ s.len < s.pos ∧ step s = .fault .cursorPastEnd) ∨
    (s.halted = false ∧ s.pos = s.len ∧ step s = .next s) ∨
    (s.halted = false ∧ s.pos < s.len ∧ s.len ≤ s.pos + 3 ∧
      decode (window s) = .error .truncated ∧
      step s = .next (takeException (.truncated (s.len - s.pos)) s)) ∨
    (s.halted = false ∧ ∃ i, decode (window s) = .ok i ∧ s.pos + i.length ≤ s.len ∧
      step s = exec i s) := by
  cases hh : s.halted with
  | true => exact .inl ⟨rfl, step_of_halted hh⟩
  | false =>
    rcases Nat.lt_trichotomy s.pos s.len with hp | hp | hp
    · cases hd : decode (window s) with
      | ok i =>
        have hl := length_le_of_decode hd
        rw [window_length, avail_eq] at hl
        exact .inr (.inr (.inr (.inr ⟨rfl, i, rfl, by omega, step_of_decode hh hp.le hd⟩)))
      | error e =>
        cases e with
        | endOfStream => exact absurd (window_eq_nil.1 (eq_nil_of_decode_endOfStream hd)) (by omega)
        | truncated =>
          have hl := (length_of_decode_truncated hd).2
          rw [window_length, avail_eq] at hl
          exact .inr (.inr (.inr (.inl
            ⟨rfl, hp, by omega, rfl, step_of_truncated hh hp.le hd⟩)))
    · exact .inr (.inr (.inl ⟨rfl, hp, step_of_end hh hp⟩))
    · exact .inr (.inl ⟨rfl, hp, step_of_past_end hh hp⟩)

end Sys2Proof.Machine
end

