-- ==== Sys2Proof/Tests/Slice0.lean ====
section
/-! SUPPORT. Tests of the model: ill-formed terms, words written out from the encodings of
spec/30_encoding.md, single steps with the expected values of spec/95_test_vectors.md (the vector's name
stands in the comment), and one witness for the hypotheses of each statement. -/

namespace Sys2Proof.Tests

open Sys2Proof.Machine

/-! ### Ill-formed terms are refused (spec/opcode_table.json, the rows' `mask` and `match`) -/

theorem test_ill_formed_unsupported8BDisp8 :
    (Instr.unsupported8BDisp8 0x3F#8).wellFormed = false ∧ (Instr.unsupported8BDisp8 0x80#8).wellFormed = false := by decide

theorem test_ill_formed_unsupported8BDisp16 :
    (Instr.unsupported8BDisp16 0x7F#8).wellFormed = false ∧ (Instr.unsupported8BDisp16 0xC0#8).wellFormed = false := by decide

theorem test_ill_formed_unsupported8BReg :
    (Instr.unsupported8BReg 0xBF#8).wellFormed = false ∧ (Instr.unsupported8BReg 0x00#8).wellFormed = false := by decide

theorem test_ill_formed_unknown01 :
    (Instr.unknown01 0x00#8).wellFormed = false ∧ (Instr.unknown01 0x02#8).wellFormed = false := by decide

theorem test_ill_formed_unknown02 :
    (Instr.unknown02 0x01#8).wellFormed = false ∧ (Instr.unknown02 0x04#8).wellFormed = false := by decide

theorem test_ill_formed_unknown04 :
    (Instr.unknown04 0x03#8).wellFormed = false ∧ (Instr.unknown04 0x08#8).wellFormed = false := by decide

theorem test_ill_formed_unknown08 :
    (Instr.unknown08 0x07#8).wellFormed = false ∧ (Instr.unknown08 0x10#8).wellFormed = false := by decide

theorem test_ill_formed_unknown10 :
    (Instr.unknown10 0x0F#8).wellFormed = false ∧ (Instr.unknown10 0x20#8).wellFormed = false := by decide

theorem test_ill_formed_unknown20 :
    (Instr.unknown20 0x1F#8).wellFormed = false ∧ (Instr.unknown20 0x40#8).wellFormed = false := by decide

theorem test_ill_formed_unknown40 :
    (Instr.unknown40 0x3F#8).wellFormed = false ∧ (Instr.unknown40 0x80#8).wellFormed = false := by decide

theorem test_ill_formed_unknown80 :
    (Instr.unknown80 0x7F#8).wellFormed = false ∧ (Instr.unknown80 0x88#8).wellFormed = false := by decide

theorem test_ill_formed_unknown8C :
    (Instr.unknown8C 0x8B#8).wellFormed = false ∧ (Instr.unknown8C 0x90#8).wellFormed = false := by decide

theorem test_ill_formed_unknown90 :
    (Instr.unknown90 0x8F#8).wellFormed = false ∧ (Instr.unknown90 0xA0#8).wellFormed = false := by decide

theorem test_ill_formed_unknownA0 :
    (Instr.unknownA0 0x9F#8).wellFormed = false ∧ (Instr.unknownA0 0xB0#8).wellFormed = false := by decide

theorem test_ill_formed_unknownC0 :
    (Instr.unknownC0 0xBF#8).wellFormed = false ∧ (Instr.unknownC0 0x00#8).wellFormed = false := by decide

/-! ### Decoding: words written out from the encodings (R35 to R38), one or more for every constructor -/

/-- R35. -/
theorem test_decode_padding :
    decode [0b00000000#8] = .ok (.pad) := by decide

/-- R36; D = 0, W = 0, the four modes, reg and rm told apart. -/
theorem test_decode_mov_88 :
    decode [0b10001000#8, 0b00_101_011#8] = .ok (.mov88Mem 5 3) ∧
    decode [0b10001000#8, 0b01_011_100#8, 0b00000100#8] = .ok (.mov88Disp8 3 4 0x04#8) ∧
    decode [0b10001000#8, 0b10_010_111#8, 0b00000000#8, 0b00000001#8] = .ok (.mov88Disp16 2 7 0x0100#16) ∧
    decode [0b10001000#8, 0b11_100_101#8] = .ok (.mov88Reg 4 5) := by decide

/-- R36; D = 0, W = 1. -/
theorem test_decode_mov_89 :
    decode [0b10001001#8, 0b00_001_110#8] = .ok (.mov89Mem 1 6) ∧
    decode [0b10001001#8, 0b01_010_110#8, 0b11111000#8] = .ok (.mov89Disp8 2 6 0xF8#8) ∧
    decode [0b10001001#8, 0b10_111_110#8, 0b00110100#8, 0b00010010#8] = .ok (.mov89Disp16 7 6 0x1234#16) ∧
    decode [0b10001001#8, 0b11_011_000#8] = .ok (.mov89Reg 3 0) := by decide

/-- R36; D = 1, W = 0. -/
theorem test_decode_mov_8A :
    decode [0b10001010#8, 0b00_110_001#8] = .ok (.mov8AMem 6 1) ∧
    decode [0b10001010#8, 0b01_010_110#8, 0b00000100#8] = .ok (.mov8ADisp8 2 6 0x04#8) ∧
    decode [0b10001010#8, 0b10_011_100#8, 0b00101100#8, 0b00000001#8] = .ok (.mov8ADisp16 3 4 0x012C#16) ∧
    decode [0b10001010#8, 0b11_101_110#8] = .ok (.mov8AReg 5 6) := by decide

/-- R36; D = 1, W = 1; a refused form takes no displacement (R53). -/
theorem test_decode_mov_8B :
    decode [0b10001011#8, 0b00_011_110#8] = .ok (.mov8BMem 3 6) ∧
    decode [0b10001011#8, 0b01_000_110#8] = .ok (.unsupported8BDisp8 0x46#8) ∧
    decode [0b10001011#8, 0b10_011_100#8] = .ok (.unsupported8BDisp16 0x9C#8) ∧
    decode [0b10001011#8, 0b11_000_011#8] = .ok (.unsupported8BReg 0xC3#8) := by decide

/-- R37. -/
theorem test_decode_mov_immediate :
    decode [0b10110_101#8, 0b11111110#8] = .ok (.movImm8 5 0xFE#8) ∧
    decode [0b10111_011#8, 0b00111001#8, 0b00110000#8] = .ok (.movImm16 3 0x3039#16) := by decide

/-- R38; both ends of each row's block. -/
theorem test_decode_unknown :
    decode [0b00000001#8] = .ok (.unknown01 0x01#8) ∧
    decode [0b00000010#8] = .ok (.unknown02 0x02#8) ∧
    decode [0b00000011#8] = .ok (.unknown02 0x03#8) ∧
    decode [0b00000100#8] = .ok (.unknown04 0x04#8) ∧
    decode [0b00000111#8] = .ok (.unknown04 0x07#8) ∧
    decode [0b00001000#8] = .ok (.unknown08 0x08#8) ∧
    decode [0b00001111#8] = .ok (.unknown08 0x0F#8) ∧
    decode [0b00010000#8] = .ok (.unknown10 0x10#8) ∧
    decode [0b00011111#8] = .ok (.unknown10 0x1F#8) ∧
    decode [0b00100000#8] = .ok (.unknown20 0x20#8) ∧
    decode [0b00111111#8] = .ok (.unknown20 0x3F#8) ∧
    decode [0b01000000#8] = .ok (.unknown40 0x40#8) ∧
    decode [0b01111111#8] = .ok (.unknown40 0x7F#8) ∧
    decode [0b10000000#8] = .ok (.unknown80 0x80#8) ∧
    decode [0b10000111#8] = .ok (.unknown80 0x87#8) ∧
    decode [0b10001100#8] = .ok (.unknown8C 0x8C#8) ∧
    decode [0b10001111#8] = .ok (.unknown8C 0x8F#8) ∧
    decode [0b10010000#8] = .ok (.unknown90 0x90#8) ∧
    decode [0b10011111#8] = .ok (.unknown90 0x9F#8) ∧
    decode [0b10100000#8] = .ok (.unknownA0 0xA0#8) ∧
    decode [0b10101111#8] = .ok (.unknownA0 0xAF#8) ∧
    decode [0b11000000#8] = .ok (.unknownC0 0xC0#8) ∧
    decode [0b11111111#8] = .ok (.unknownC0 0xFF#8) := by decide

/-- A list that ends inside an instruction is rejected by name (R86), and so is one with no leading byte. -/
theorem test_decode_rejects :
    decode [] = .error .endOfStream ∧ decode [0x8B#8] = .error .truncated ∧
    decode [0x88#8, 0x40#8] = .error .truncated ∧ decode [0x8A#8, 0x9C#8, 0x2C#8] = .error .truncated ∧
    decode [0xB7#8] = .error .truncated ∧ decode [0xB8#8, 0x00#8] = .error .truncated := by decide

/-- Words of spec/opcode_table.json in its numbering (the leading byte is bits 15:8): `match` values, and rows
given in 8 bits. -/
theorem test_decodeTableWord :
    decodeTableWord 16 0x0000 = some .pad ∧ decodeTableWord 16 0x8840 = some (.mov88Disp8 0 0 0x00#8) ∧
    decodeTableWord 16 0x89D8 = some (.mov89Reg 3 0) ∧ decodeTableWord 32 0x8A80 = some (.mov8ADisp16 0 0 0x0000#16) ∧
    decodeTableWord 16 0x8BC0 = some (.unsupported8BReg 0xC0#8) ∧
    decodeTableWord 16 0xB800 = some (.movImm16 0 0x0000#16) ∧ decodeTableWord 8 0x90 = some (.unknown90 0x90#8) ∧
    decodeTableWord 16 0xC000 = some (.unknownC0 0xC0#8) := by decide

/-! ### One step from reset (spec/95_test_vectors.md part 2) -/

/-- What a vector of part 2 lists: `pos`, `halted`, the three report fields and the records with their `start`
and `n`. -/
structure Seen where
  pos : Nat
  halted : Bool
  faultKind : BitVec 2
  faultOffset : Nat
  faultStart : Nat
  output : List Emission
deriving DecidableEq, Repr

def seen (s : State) : Seen :=
  ⟨s.pos, s.halted, faultKindField s, s.faultOffset, s.faultStart, s.output⟩

/-- What is seen after one step over a stream. -/
def after (bytes : List Byte) : Option Seen :=
  (nextOf (step (load bytes))).map seen

/-- What a vector lists for a step that emits `r`, consumes `n` bytes and does not halt. -/
def plain (n : Nat) (r : Record) : Option Seen :=
  some ⟨n, false, 0#2, 0, 0, [⟨0, n, r⟩]⟩

/-- The text of the records after one step over a stream. -/
def textAfter (bytes : List Byte) : Option Text :=
  (nextOf (step (load bytes))).map fun s => outputText s.output

/-- Vector A3. -/
theorem test_step_A3 :
    after [0x88#8, 0x36#8] = plain 2 (.insn (.memory 6 none) (.register 6 .w8)) := by decide

/-- Vector A9. -/
theorem test_step_A9 :
    after [0x88#8, 0x46#8, 0x80#8] = plain 3 (.insn (.memory 6 (some (.i8 (-128)))) (.register 0 .w8)) := by decide

/-- Vector A6. -/
theorem test_step_A6 :
    after [0x88#8, 0x5C#8, 0x04#8] = plain 3 (.insn (.memory 4 (some (.i8 (4)))) (.register 3 .w8)) := by decide

/-- Vector A13. -/
theorem test_step_A13 :
    after [0x88#8, 0x80#8, 0x00#8, 0x80#8] = plain 4 (.insn (.memory 0 (some (.i16 (-32768)))) (.register 0 .w8)) := by decide

/-- Vector A15. -/
theorem test_step_A15 :
    after [0x88#8, 0x86#8, 0xFF#8, 0x00#8] = plain 4 (.insn (.memory 6 (some (.i16 (255)))) (.register 0 .w8)) := by decide

/-- Vector A18. -/
theorem test_step_A18 :
    after [0x88#8, 0xE5#8] = plain 2 (.insn (.register 5 .w8) (.register 4 .w8)) := by decide

/-- Vector B3. -/
theorem test_step_B3 :
    after [0x89#8, 0x0E#8] = plain 2 (.insn (.memory 6 none) (.register 1 .w16)) := by decide

/-- Vector B6. -/
theorem test_step_B6 :
    after [0x89#8, 0x56#8, 0xF8#8] = plain 3 (.insn (.memory 6 (some (.i8 (-8)))) (.register 2 .w16)) := by decide

/-- Vector B9. -/
theorem test_step_B9 :
    after [0x89#8, 0xA8#8, 0xFF#8, 0xFF#8] = plain 4 (.insn (.memory 0 (some (.i16 (-1)))) (.register 5 .w16)) := by decide

/-- Vector B12. -/
theorem test_step_B12 :
    after [0x89#8, 0xD8#8] = plain 2 (.insn (.register 0 .w16) (.register 3 .w16)) := by decide

/-- Vector C4. -/
theorem test_step_C4 :
    after [0x8A#8, 0x3E#8] = plain 2 (.insn (.register 7 .w8) (.memory 6 none)) := by decide

/-- Vector C6. -/
theorem test_step_C6 :
    after [0x8A#8, 0x56#8, 0x04#8] = plain 3 (.insn (.register 2 .w8) (.memory 6 (some (.i8 (4))))) := by decide

/-- Vector C10. -/
theorem test_step_C10 :
    after [0x8A#8, 0x9C#8, 0x2C#8, 0x01#8] = plain 4 (.insn (.register 3 .w8) (.memory 4 (some (.i16 (300))))) := by decide

/-- Vector C14. -/
theorem test_step_C14 :
    after [0x8A#8, 0xEE#8] = plain 2 (.insn (.register 5 .w8) (.register 6 .w8)) := by decide

/-- Vector D3. -/
theorem test_step_D3 :
    after [0x8B#8, 0x1E#8] = plain 2 (.insn (.register 3 .w16) (.memory 6 none)) := by decide

/-- Vector E5. -/
theorem test_step_E5 :
    after [0xB2#8, 0x80#8] = plain 2 (.insn (.register 2 .w8) (.immediate (.i8 (-128)))) := by decide

/-- Vector E8. -/
theorem test_step_E8 :
    after [0xB5#8, 0xFE#8] = plain 2 (.insn (.register 5 .w8) (.immediate (.i8 (-2)))) := by decide

/-- Vector E14. -/
theorem test_step_E14 :
    after [0xB9#8, 0xFF#8, 0x00#8] = plain 3 (.insn (.register 1 .w16) (.immediate (.i16 (255)))) := by decide

/-- Vector E15. -/
theorem test_step_E15 :
    after [0xBA#8, 0x34#8, 0x12#8] = plain 3 (.insn (.register 2 .w16) (.immediate (.i16 (4660)))) := by decide

/-- Vector D6: refused once the ModRM byte is there, nothing after it consumed. -/
theorem test_step_D6 :
    after [0x8B#8, 0x40#8] = some ⟨2, true, 3#2, 1, 0, [⟨0, 2, .failUnsupportedForm 0x40#8 1⟩]⟩ := by decide

/-- Vector D10: refused once the ModRM byte is there, nothing after it consumed. -/
theorem test_step_D10 :
    after [0x8B#8, 0x9C#8, 0x00#8, 0x01#8] = some ⟨2, true, 3#2, 1, 0, [⟨0, 2, .failUnsupportedForm 0x9C#8 1⟩]⟩ := by decide

/-- Vector D12: refused once the ModRM byte is there, nothing after it consumed. -/
theorem test_step_D12 :
    after [0x8B#8, 0xC3#8] = some ⟨2, true, 3#2, 1, 0, [⟨0, 2, .failUnsupportedForm 0xC3#8 1⟩]⟩ := by decide

/-- Vector F1. -/
theorem test_step_F1 : after [0x00#8] = some ⟨1, false, 0#2, 0, 0, []⟩ := by decide

/-- Vectors G1, G2, G3, G4, G5, G6, G7, G9, G11, G13 and, by R83, the three rows they leave: one byte consumed, the run
goes on. -/
theorem test_step_unknown :
    after [0x01#8] = plain 1 (.unknown 0x01#8) ∧
    after [0x03#8] = plain 1 (.unknown 0x03#8) ∧
    after [0x05#8] = plain 1 (.unknown 0x05#8) ∧
    after [0x0F#8] = plain 1 (.unknown 0x0F#8) ∧
    after [0x10#8] = plain 1 (.unknown 0x10#8) ∧
    after [0x26#8] = plain 1 (.unknown 0x26#8) ∧
    after [0x66#8] = plain 1 (.unknown 0x66#8) ∧
    after [0x87#8] = plain 1 (.unknown 0x87#8) ∧
    after [0x8C#8] = plain 1 (.unknown 0x8C#8) ∧
    after [0x90#8] = plain 1 (.unknown 0x90#8) ∧
    after [0xA3#8] = plain 1 (.unknown 0xA3#8) ∧
    after [0xC0#8] = plain 1 (.unknown 0xC0#8) := by decide

/-- Vectors T4, T5, T13, T17: the offset of the missing byte is `LEN`. -/
theorem test_step_truncated :
    after [0x8B#8] = some ⟨1, true, 2#2, 1, 0, [⟨0, 1, .failTruncated 1⟩]⟩ ∧
    after [0x88#8, 0x40#8] = some ⟨2, true, 2#2, 2, 0, [⟨0, 2, .failTruncated 2⟩]⟩ ∧
    after [0x8A#8, 0x9C#8, 0x2C#8] = some ⟨3, true, 2#2, 3, 0, [⟨0, 3, .failTruncated 3⟩]⟩ ∧
    after [0xB8#8, 0x00#8] = some ⟨2, true, 2#2, 2, 0, [⟨0, 2, .failTruncated 2⟩]⟩ := by decide

/-- Vector X6: a step at an offset other than 0. -/
theorem test_step_X6 :
    (nextOf (step { load [0x00#8, 0x00#8, 0xB0#8, 0x05#8] with pos := 2 })).map seen =
      some ⟨4, false, 0#2, 0, 0, [⟨2, 2, .insn (.register 0 .w8) (.immediate (.i8 5))⟩]⟩ := by decide

/-- Vectors X2 and X3: the end of the stream, and a halt, change nothing. -/
theorem test_step_ends :
    nextOf (step { load [0xB0#8, 0x05#8] with pos := 2 }) = some { load [0xB0#8, 0x05#8] with pos := 2 } ∧
    (nextOf (step { load [0x8B#8, 0xC3#8, 0xB0#8, 0x05#8] with
        pos := 2, halted := true, faultKind := .unsupportedForm, faultOffset := 1 })).map seen =
      some ⟨2, true, 3#2, 1, 0, []⟩ := by decide

/-- A cursor past the end is no state of the block (R10). -/
theorem test_step_past_end : step { load [0xB0#8] with pos := 2 } = .fault .cursorPastEnd := rfl

/-- Vector X5: reset from a halted state. -/
theorem test_reset :
    seen (applyReset { load [0xB0#8] with pos := 1, halted := true, faultKind := .truncated, faultOffset := 1 }) =
      ⟨0, false, 0#2, 0, 0, []⟩ := by decide

/-- Texts of vectors A7, A5, C14, E20, G3, D6 and T9. -/
theorem test_text :
    textAfter [0x88#8, 0x4A#8, 0xFC#8] = some "mov [bp+si + -4], cl".toList ∧
    textAfter [0x88#8, 0x40#8, 0x00#8] = some "mov [bx+si + 0], al".toList ∧
    textAfter [0x8A#8, 0xEE#8] = some "mov ch, dh".toList ∧
    textAfter [0xBF#8, 0x00#8, 0x80#8] = some "mov di, -32768".toList ∧
    textAfter [0x0F#8] = some "unknown opcode: 0F".toList ∧
    textAfter [0x8B#8, 0x40#8] = some "unsupported form: 8B 40 at offset 1".toList ∧
    textAfter [0x88#8, 0x80#8, 0x00#8] = some "truncated at offset 3".toList := by decide

/-- Vectors W9, W10, W17, W23 and W26 of `Decode`, with the don't-care bytes set. -/
theorem test_window :
    windowDecode #v[0xB8#8, 0x00#8, 0x01#8, 0xEE#8] 3 = (.emit (.insn (.register 0 .w16) (.immediate (.i16 256))), 3) ∧
    windowDecode #v[0xB8#8, 0x00#8, 0xEE#8, 0xEE#8] 2 = (.halt .truncated, 2) ∧
    windowDecode #v[0x8A#8, 0x56#8, 0xEE#8, 0xEE#8] 2 = (.halt .truncated, 2) ∧
    windowDecode #v[0x8B#8, 0x46#8, 0x04#8, 0xEE#8] 4 = (.halt (.unsupportedForm 0x46#8), 2) ∧
    windowDecode #v[0x8B#8, 0xEE#8, 0xEE#8, 0xEE#8] 1 = (.halt .truncated, 1) := by decide

/-! ### The host's words run as the first instruction -/

theorem test_withFetchWord_mov :
    (nextOf (step (State.reset.withFetchWord 16 0x89D8))).map seen =
      plain 2 (.insn (.register 0 .w16) (.register 3 .w16)) := by decide

theorem test_withFetchWord_unknown :
    (nextOf (step (State.reset.withFetchWord 16 0x9000))).map seen = plain 1 (.unknown 0x90#8) := by decide

/-- From a halted state in the middle of a stream the placed word is still what the next step runs. -/
theorem test_withFetchWord_refused :
    (nextOf (step (State.withFetchWord
      { load [0xB0#8] with pos := 1, halted := true, faultKind := .truncated, faultOffset := 1 } 16 0x8B46))).map seen =
      some ⟨3, true, 3#2, 2, 1, [⟨1, 2, .failUnsupportedForm 0x46#8 2⟩]⟩ := by decide

/-! ### Witnesses: for each statement with hypotheses, states and operands that meet them -/

/-- DecodeOfEncodeIsTheInstruction: rows whose check is not trivial, at the ends of their ranges. -/
theorem test_witness_DecodeOfEncodeIsTheInstruction :
    (Instr.mov88Disp16 7 6 0xFFFF#16).wellFormed = true ∧ (Instr.unsupported8BDisp8 0x40#8).wellFormed = true ∧
    (Instr.unsupported8BReg 0xFF#8).wellFormed = true ∧ (Instr.unknown01 0x01#8).wellFormed = true ∧
    (Instr.unknownC0 0xFF#8).wellFormed = true := by decide

/-- DecodedBytesAreTheEncoding. -/
theorem test_witness_DecodedBytesAreTheEncoding :
    decode [0x88#8, 0x46#8, 0x80#8, 0x00#8] = .ok (.mov88Disp8 0 6 0x80#8) ∧
    decode [0x8B#8, 0x46#8] = .ok (.unsupported8BDisp8 0x46#8) := by decide

/-- StepRunsTheDecodedInstruction: at offset 0, and at the last byte of a stream. -/
theorem test_witness_StepRunsTheDecodedInstruction :
    (Running (load [0x88#8, 0x46#8, 0x80#8]) ∧
      decode (window (load [0x88#8, 0x46#8, 0x80#8])) = .ok (.mov88Disp8 0 6 0x80#8)) ∧
    (Running { load [0xB0#8, 0x05#8, 0x90#8] with pos := 2 } ∧
      decode (window { load [0xB0#8, 0x05#8, 0x90#8] with pos := 2 }) = .ok (.unknown90 0x90#8)) :=
  ⟨⟨⟨rfl, by decide⟩, by decide⟩, ⟨rfl, by decide⟩, by decide⟩

/-- StepRunsTheInstructionPlacedAtTheCursor: a four-byte instruction that ends with the stream, at an odd
offset. -/
theorem test_witness_StepRunsTheInstructionPlacedAtTheCursor :
    let s := { load [0x00#8, 0x8A#8, 0x9C#8, 0x2C#8, 0x01#8] with pos := 1 }
    let i := Instr.mov8ADisp16 3 4 0x012C#16
    s.halted = false ∧ i.wellFormed = true ∧ memRead s s.pos i.length = some (encode i) := by decide

/-- StepRunsThePlacedTableWord: from reset, and from a halted state with a stream. -/
theorem test_witness_StepRunsThePlacedTableWord :
    (State.reset.mem.wf = true ∧ decodeTableWord 16 0x89D8 = some (.mov89Reg 3 0)) ∧
    ((load [0xB8#8, 0x00#8]).mem.wf = true ∧ decodeTableWord 8 0x90 = some (.unknown90 0x90#8)) := by decide

/-- MovRegisterToRmStepsAsItsRules, width 8: each clause, with `reg` and `rm` at 0 and 7 and the displacements at
the ends of their ranges. -/
theorem test_witness_MovRegisterToRmStepsAsItsRules8 :
    (Running (load [0x88#8]) ∧ LeadingByte (load [0x88#8]) 0x88#8 ∧
      (load [0x88#8]).len - (load [0x88#8]).pos = 1) ∧
    (Running (load [0x88#8, 0x3F#8]) ∧ LeadingByte (load [0x88#8, 0x3F#8]) 0x88#8 ∧
      ModRMFields (load [0x88#8, 0x3F#8]) 0b00 7 7) ∧
    (ModRMFields (load [0x88#8, 0x40#8]) 0b01 0 0 ∧ LeadingByte (load [0x88#8, 0x40#8]) 0x88#8 ∧
      (load [0x88#8, 0x40#8]).len - (load [0x88#8, 0x40#8]).pos = 2) ∧
    (ModRMFields (load [0x88#8, 0x46#8, 0x80#8]) 0b01 0 6 ∧ LeadingByte (load [0x88#8, 0x46#8, 0x80#8]) 0x88#8 ∧
      byteAt (load [0x88#8, 0x46#8, 0x80#8]) 2 = some 0x80#8 ∧ (-128 : Int) = signedValue 8 0x80) ∧
    (ModRMFields (load [0x88#8, 0x80#8, 0x00#8]) 0b10 0 0 ∧ LeadingByte (load [0x88#8, 0x80#8, 0x00#8]) 0x88#8 ∧
      (load [0x88#8, 0x80#8, 0x00#8]).len - (load [0x88#8, 0x80#8, 0x00#8]).pos = 3) ∧
    (ModRMFields (load [0x88#8, 0x80#8, 0x00#8, 0x80#8]) 0b10 0 0 ∧
      LeadingByte (load [0x88#8, 0x80#8, 0x00#8, 0x80#8]) 0x88#8 ∧
      byteAt (load [0x88#8, 0x80#8, 0x00#8, 0x80#8]) 2 = some 0x00#8 ∧
      byteAt (load [0x88#8, 0x80#8, 0x00#8, 0x80#8]) 3 = some 0x80#8 ∧
      (-32768 : Int) = signedValue 16 (0x00 + 256 * 0x80)) ∧
    (LeadingByte (load [0x88#8, 0xFF#8]) 0x88#8 ∧ ModRMFields (load [0x88#8, 0xFF#8]) 0b11 7 7) :=
  ⟨⟨⟨rfl, by decide⟩, rfl, rfl⟩, ⟨⟨rfl, by decide⟩, rfl, 0x3F#8, rfl, rfl⟩, ⟨⟨0x40#8, rfl, rfl⟩, rfl, rfl⟩,
    ⟨⟨0x46#8, rfl, rfl⟩, rfl, rfl, by decide⟩, ⟨⟨0x80#8, rfl, rfl⟩, rfl, rfl⟩,
    ⟨⟨0x80#8, rfl, rfl⟩, rfl, rfl, rfl, by decide⟩, ⟨rfl, 0xFF#8, rfl, rfl⟩⟩

/-- MovRegisterToRmStepsAsItsRules, width 16, at an offset other than 0. -/
theorem test_witness_MovRegisterToRmStepsAsItsRules16 :
    let s := { load [0x00#8, 0x89#8, 0xBE#8, 0xFF#8, 0x7F#8, 0x90#8] with pos := 1 }
    Running s ∧ LeadingByte s 0x89#8 ∧ ModRMFields s 0b10 7 6 ∧ byteAt s (s.pos + 2) = some 0xFF#8 ∧
      byteAt s (s.pos + 3) = some 0x7F#8 ∧ (32767 : Int) = signedValue 16 (0xFF + 256 * 0x7F) :=
  ⟨⟨rfl, by decide⟩, rfl, ⟨0xBE#8, rfl, rfl⟩, rfl, rfl, by decide⟩

/-- MovRmToByteRegisterStepsAsItsRules: each clause. -/
theorem test_witness_MovRmToByteRegisterStepsAsItsRules :
    (Running (load [0x8A#8]) ∧ LeadingByte (load [0x8A#8]) 0x8A#8 ∧
      (load [0x8A#8]).len - (load [0x8A#8]).pos = 1) ∧
    (Running (load [0x8A#8, 0x00#8]) ∧ LeadingByte (load [0x8A#8, 0x00#8]) 0x8A#8 ∧
      ModRMFields (load [0x8A#8, 0x00#8]) 0b00 0 0) ∧
    (ModRMFields (load [0x8A#8, 0x7F#8]) 0b01 7 7 ∧ LeadingByte (load [0x8A#8, 0x7F#8]) 0x8A#8 ∧
      (load [0x8A#8, 0x7F#8]).len - (load [0x8A#8, 0x7F#8]).pos = 2) ∧
    (ModRMFields (load [0x8A#8, 0x7F#8, 0x7F#8]) 0b01 7 7 ∧ LeadingByte (load [0x8A#8, 0x7F#8, 0x7F#8]) 0x8A#8 ∧
      byteAt (load [0x8A#8, 0x7F#8, 0x7F#8]) 2 = some 0x7F#8 ∧ (127 : Int) = signedValue 8 0x7F) ∧
    (ModRMFields (load [0x8A#8, 0x9C#8]) 0b10 3 4 ∧ LeadingByte (load [0x8A#8, 0x9C#8]) 0x8A#8 ∧
      (load [0x8A#8, 0x9C#8]).len - (load [0x8A#8, 0x9C#8]).pos = 2) ∧
    (ModRMFields (load [0x8A#8, 0x86#8, 0xFF#8, 0xFF#8]) 0b10 0 6 ∧
      LeadingByte (load [0x8A#8, 0x86#8, 0xFF#8, 0xFF#8]) 0x8A#8 ∧
      byteAt (load [0x8A#8, 0x86#8, 0xFF#8, 0xFF#8]) 2 = some 0xFF#8 ∧
      byteAt (load [0x8A#8, 0x86#8, 0xFF#8, 0xFF#8]) 3 = some 0xFF#8 ∧
      (-1 : Int) = signedValue 16 (0xFF + 256 * 0xFF)) ∧
    (LeadingByte (load [0x8A#8, 0xC0#8]) 0x8A#8 ∧ ModRMFields (load [0x8A#8, 0xC0#8]) 0b11 0 0) :=
  ⟨⟨⟨rfl, by decide⟩, rfl, rfl⟩, ⟨⟨rfl, by decide⟩, rfl, 0x00#8, rfl, rfl⟩, ⟨⟨0x7F#8, rfl, rfl⟩, rfl, rfl⟩,
    ⟨⟨0x7F#8, rfl, rfl⟩, rfl, rfl, by decide⟩, ⟨⟨0x9C#8, rfl, rfl⟩, rfl, rfl⟩,
    ⟨⟨0x86#8, rfl, rfl⟩, rfl, rfl, rfl, by decide⟩, ⟨rfl, 0xC0#8, rfl, rfl⟩⟩

/-- MovRmToWordRegisterStepsAsItsRules: each clause; the last accepted ModRM byte, the first and the last refused
one, the stream ending with it. -/
theorem test_witness_MovRmToWordRegisterStepsAsItsRules :
    (Running (load [0x8B#8]) ∧ LeadingByte (load [0x8B#8]) 0x8B#8 ∧
      (load [0x8B#8]).len - (load [0x8B#8]).pos = 1) ∧
    (Running (load [0x8B#8, 0x3F#8]) ∧ LeadingByte (load [0x8B#8, 0x3F#8]) 0x8B#8 ∧
      ModRMFields (load [0x8B#8, 0x3F#8]) 0b00 7 7) ∧
    (Running (load [0x8B#8, 0x40#8]) ∧ LeadingByte (load [0x8B#8, 0x40#8]) 0x8B#8 ∧
      byteAt (load [0x8B#8, 0x40#8]) 1 = some 0x40#8 ∧ (0x40#8).toNat / 64 ≠ 0) ∧
    (Running (load [0x8B#8, 0xFF#8]) ∧ LeadingByte (load [0x8B#8, 0xFF#8]) 0x8B#8 ∧
      byteAt (load [0x8B#8, 0xFF#8]) 1 = some 0xFF#8 ∧ (0xFF#8).toNat / 64 ≠ 0) :=
  ⟨⟨⟨rfl, by decide⟩, rfl, rfl⟩, ⟨⟨rfl, by decide⟩, rfl, 0x3F#8, rfl, rfl⟩,
    ⟨⟨rfl, by decide⟩, rfl, rfl, by decide⟩, ⟨rfl, by decide⟩, rfl, rfl, by decide⟩

/-- MovImmediateStepsAsItsRules: each clause, at the lowest and the highest opcode of each half. -/
theorem test_witness_MovImmediateStepsAsItsRules :
    (Running (load [0xB0#8]) ∧ LeadingByte (load [0xB0#8]) 0xB0#8 ∧ (0xB0#8).toNat = 0xB0 + (0 : Fin 8).val ∧
      (load [0xB0#8]).len - (load [0xB0#8]).pos = 1) ∧
    (Running (load [0xB7#8, 0x80#8]) ∧ LeadingByte (load [0xB7#8, 0x80#8]) 0xB7#8 ∧
      (0xB7#8).toNat = 0xB0 + (7 : Fin 8).val ∧ byteAt (load [0xB7#8, 0x80#8]) 1 = some 0x80#8 ∧
      (-128 : Int) = signedValue 8 0x80) ∧
    (Running (load [0xB8#8, 0x00#8]) ∧ LeadingByte (load [0xB8#8, 0x00#8]) 0xB8#8 ∧
      (0xB8#8).toNat = 0xB8 + (0 : Fin 8).val ∧ (load [0xB8#8, 0x00#8]).len - (load [0xB8#8, 0x00#8]).pos = 2) ∧
    (Running (load [0xBF#8, 0xFF#8, 0x7F#8]) ∧ LeadingByte (load [0xBF#8, 0xFF#8, 0x7F#8]) 0xBF#8 ∧
      (0xBF#8).toNat = 0xB8 + (7 : Fin 8).val ∧ byteAt (load [0xBF#8, 0xFF#8, 0x7F#8]) 1 = some 0xFF#8 ∧
      byteAt (load [0xBF#8, 0xFF#8, 0x7F#8]) 2 = some 0x7F#8 ∧ (32767 : Int) = signedValue 16 (0xFF + 256 * 0x7F)) :=
  ⟨⟨⟨rfl, by decide⟩, rfl, by decide, rfl⟩, ⟨⟨rfl, by decide⟩, rfl, by decide, rfl, by decide⟩,
    ⟨⟨rfl, by decide⟩, rfl, by decide, rfl⟩, ⟨rfl, by decide⟩, rfl, by decide, rfl, rfl, by decide⟩

/-- PaddingIsSkipped. -/
theorem test_witness_PaddingIsSkipped : Running (load [0x00#8]) ∧ LeadingByte (load [0x00#8]) 0x00#8 :=
  ⟨⟨rfl, by decide⟩, rfl⟩

/-- UnknownOpcodeIsDiagnosedAndTheRunGoesOn: the lowest and the highest unknown byte, and a byte that is not
unknown. -/
theorem test_witness_UnknownOpcodeIsDiagnosedAndTheRunGoesOn :
    (Running (load [0x01#8]) ∧ LeadingByte (load [0x01#8]) 0x01#8 ∧ UnknownByte 0x01#8) ∧
    (Running (load [0xFF#8]) ∧ LeadingByte (load [0xFF#8]) 0xFF#8 ∧ UnknownByte 0xFF#8) ∧
    (Running (load [0x88#8]) ∧ ¬ UnknownByte 0x88#8) := by
  refine ⟨⟨⟨rfl, by decide⟩, rfl, ?_⟩, ⟨⟨rfl, by decide⟩, rfl, ?_⟩, ⟨rfl, by decide⟩, ?_⟩ <;>
    simp [UnknownByte]

/-- EveryMeaningKeepsItsFrame: an instruction, padding and a refused form. -/
theorem test_witness_EveryMeaningKeepsItsFrame :
    (∃ t, exec (.mov89Reg 3 0) (load [0x89#8, 0xD8#8]) = .next t) ∧
    (∃ t, exec .pad (load [0x00#8]) = .next t) ∧
    (∃ t, exec (.unsupported8BReg 0xC0#8) (load [0x8B#8, 0xC0#8]) = .next t) := ⟨⟨_, rfl⟩, ⟨_, rfl⟩, _, rfl⟩

/-- TruncatedIsRaisedExactlyForMissingBytes: each case of the rule, and a complete instruction. -/
theorem test_witness_TruncatedIsRaisedExactlyForMissingBytes :
    (Running (load [0x8B#8]) ∧ LeadingByte (load [0x8B#8]) 0x8B#8) ∧
    (Running (load [0x88#8, 0x40#8]) ∧ LeadingByte (load [0x88#8, 0x40#8]) 0x88#8) ∧
    (Running (load [0x8A#8, 0x9C#8, 0x2C#8]) ∧ LeadingByte (load [0x8A#8, 0x9C#8, 0x2C#8]) 0x8A#8) ∧
    (Running (load [0xB7#8]) ∧ LeadingByte (load [0xB7#8]) 0xB7#8) ∧
    (Running (load [0xB8#8, 0x00#8]) ∧ LeadingByte (load [0xB8#8, 0x00#8]) 0xB8#8) ∧
    (Running (load [0x88#8, 0xC1#8]) ∧ LeadingByte (load [0x88#8, 0xC1#8]) 0x88#8) :=
  ⟨⟨⟨rfl, by decide⟩, rfl⟩, ⟨⟨rfl, by decide⟩, rfl⟩, ⟨⟨rfl, by decide⟩, rfl⟩, ⟨⟨rfl, by decide⟩, rfl⟩,
    ⟨⟨rfl, by decide⟩, rfl⟩, ⟨rfl, by decide⟩, rfl⟩

/-- A halted state, of a stream that ended inside an instruction. -/
def haltedState : State :=
  { load [0xB0#8] with
    pos := 1, halted := true, faultKind := .truncated, faultOffset := 1
    output := [⟨0, 1, .failTruncated 1⟩] }

/-- HaltedIsSetOnlyByTheTerminalOutcomes: each clause; the step that halts by either outcome, and one that does
not. -/
theorem test_witness_HaltedIsSetOnlyByTheTerminalOutcomes :
    haltedState.halted = true ∧
    (step (load [0xB0#8]) = .next haltedState ∧ (load [0xB0#8]).halted = false) ∧
    (∃ t, step (load [0x8B#8, 0xC0#8]) = .next t ∧ t.halted = true) ∧
    (∃ t, step (load [0x00#8]) = .next t ∧ t.halted = false) := ⟨rfl, ⟨rfl, rfl⟩, ⟨_, rfl, rfl⟩, _, rfl, rfl⟩

/-- FailureReportIsWrittenOnlyByTheHaltingStep: both halts, a step that goes on, and a halted state. -/
theorem test_witness_FailureReportIsWrittenOnlyByTheHaltingStep :
    ((load [0xB0#8]).pos ≤ (load [0xB0#8]).len ∧ step (load [0xB0#8]) = .next haltedState) ∧
    ((load [0x8B#8, 0xC0#8]).pos ≤ (load [0x8B#8, 0xC0#8]).len ∧
      ∃ t, step (load [0x8B#8, 0xC0#8]) = .next t ∧ t.halted = true) ∧
    ((load [0x00#8]).pos ≤ (load [0x00#8]).len ∧ ∃ t, step (load [0x00#8]) = .next t ∧ t.halted = false) ∧
    (haltedState.pos ≤ haltedState.len ∧ step haltedState = .next haltedState) :=
  ⟨⟨by decide, rfl⟩, ⟨by decide, _, rfl, rfl⟩, ⟨by decide, _, rfl, rfl⟩, by decide, rfl⟩

/-- OnlyTheEndsOfARunStandStill: halted, done and running. -/
theorem test_witness_OnlyTheEndsOfARunStandStill :
    (haltedState.pos ≤ haltedState.len ∧ haltedState.halted = true) ∧
    (State.reset.pos ≤ State.reset.len ∧ Done State.reset) ∧
    ((load [0x00#8]).pos ≤ (load [0x00#8]).len ∧ ¬ Done (load [0x00#8])) :=
  ⟨⟨by decide, rfl⟩, ⟨by decide, rfl, rfl⟩, by decide, fun h => absurd h.2 (by decide)⟩

/-- ATakenStepAdvancesTheCursorByOneToFour: with the byte after the leading byte, and at the last byte. -/
theorem test_witness_ATakenStepAdvancesTheCursorByOneToFour :
    (Running (load [0x88#8, 0x80#8, 0x00#8]) ∧ LeadingByte (load [0x88#8, 0x80#8, 0x00#8]) 0x88#8 ∧
      ∀ m', byteAt (load [0x88#8, 0x80#8, 0x00#8]) 1 = some m' → 0x80#8 = m') ∧
    (Running (load [0x88#8]) ∧ LeadingByte (load [0x88#8]) 0x88#8 ∧
      ∀ m', byteAt (load [0x88#8]) 1 = some m' → 0x00#8 = m') :=
  ⟨⟨⟨rfl, by decide⟩, rfl, fun _ h => Option.some.inj h⟩, ⟨rfl, by decide⟩, rfl, fun _ h => nomatch h⟩

/-- AStepEmitsAtMostOneRecord: a step that emits one and a step that emits none. -/
theorem test_witness_AStepEmitsAtMostOneRecord :
    ((load [0x90#8]).pos ≤ (load [0x90#8]).len ∧ ∃ t, step (load [0x90#8]) = .next t ∧ t.output ≠ []) ∧
    ((load [0x00#8]).pos ≤ (load [0x00#8]).len ∧ ∃ t, step (load [0x00#8]) = .next t ∧ t.output = []) :=
  ⟨⟨by decide, _, rfl, by decide⟩, by decide, _, rfl, by decide⟩

/-- NoStepWritesTheStream. -/
theorem test_witness_NoStepWritesTheStream : ∃ t, step (load [0x88#8, 0x07#8]) = .next t := ⟨_, rfl⟩

/-- AStepDependsOnlyOnTheBytesFromTheCursorOn: different bytes and records before the cursor. -/
theorem test_witness_AStepDependsOnlyOnTheBytesFromTheCursorOn :
    let s := { load [0x90#8, 0xB0#8, 0x05#8] with pos := 1, output := [⟨0, 1, .unknown 0x90#8⟩] }
    let s' := { load [0x00#8, 0xB0#8, 0x05#8] with pos := 1 }
    Running s ∧ Running s' ∧ s'.pos = s.pos ∧ s'.len = s.len ∧ s.mem ≠ s'.mem ∧
      ∀ a, s.pos ≤ a → byteAt s' a = byteAt s a := by
  refine ⟨⟨rfl, by decide⟩, ⟨rfl, by decide⟩, rfl, rfl, by decide, ?_⟩
  intro a ha
  match a, ha with
  | 1, _ => rfl
  | 2, _ => rfl
  | a + 3, _ => simp [byteAt, load]

/-- ResetWritesEveryItemOfTheState and TheCursorFitsItsRegister: a legal halted state. -/
theorem test_witness_Legal_halted : Legal haltedState ∧ haltedState.halted = true :=
  ⟨⟨by decide, by decide, by decide, .inl ⟨rfl, rfl, rfl, by decide, by decide⟩⟩, rfl⟩

/-- CanonicalMemoriesThatReadTheSameAreEqual. -/
theorem test_witness_CanonicalMemoriesThatReadTheSameAreEqual :
    Memory.wf [(0, 0x88#8), (2, 0xFF#8)] = true ∧
    Memory.wf (Memory.write (Memory.write [] 2 0xFF#8) 0 0x88#8) = true ∧
    ∀ a, Memory.read [(0, 0x88#8), (2, 0xFF#8)] a =
      Memory.read (Memory.write (Memory.write [] 2 0xFF#8) 0 0x88#8) a := by
  refine ⟨by decide, by decide, fun a => ?_⟩
  rfl

/-- A legal state in the middle of a run, with a record emitted. -/
def runningState : State :=
  { load [0x90#8, 0xB0#8, 0x05#8] with pos := 1, output := [⟨0, 1, .unknown 0x90#8⟩] }

theorem test_witness_Legal_running : Legal runningState :=
  ⟨by decide, by decide, by decide, rfl, rfl, rfl⟩

/-- EveryStepKeepsTheInvariant and SignalsShowTheStep: a legal state that takes a step, and one that stands still. -/
theorem test_witness_EveryStepKeepsTheInvariant :
    (Legal runningState ∧ ∃ t, step runningState = .next t ∧ t.pos = 3) ∧
    (Legal haltedState ∧ step haltedState = .next haltedState) :=
  ⟨⟨test_witness_Legal_running, _, rfl, rfl⟩, test_witness_Legal_halted.1, rfl⟩

/-- EveryStepKeepsTheOutputInStreamOrder. -/
theorem test_witness_EveryStepKeepsTheOutputInStreamOrder :
    runningState.pos ≤ runningState.len ∧ OrderedOutput runningState ∧ ∃ t, step runningState = .next t :=
  ⟨by decide, ⟨by decide, by decide⟩, _, rfl⟩

/-- NoRunFromALegalStateStops and EveryRunEndsDoneOrHalted: the two states above, and the reset state. -/
theorem test_witness_EveryRunEndsDoneOrHalted : Legal runningState ∧ Legal haltedState ∧ Legal State.reset :=
  ⟨test_witness_Legal_running, test_witness_Legal_halted.1, by decide, by decide, by decide, rfl, rfl, rfl⟩

/-- TheCursorFitsItsRegister: a stream of the greatest length a register of 2 bits allows. -/
theorem test_witness_TheCursorFitsItsRegister :
    Legal runningState ∧ FitsWidth 2 runningState ∧ ∃ t, Sys2Proof.core.run 2 runningState = .next t :=
  ⟨test_witness_Legal_running, show 3 < 2 ^ 2 by decide, _, rfl⟩

/-- ARunAfterResetRepeatsTheEarlierRun: a run that halted before the reset. -/
theorem test_witness_ARunAfterResetRepeatsTheEarlierRun :
    Sys2Proof.core.run 1 (load [0xB0#8]) = .next haltedState ∧
    ∃ t, Sys2Proof.core.run 1 (applyReset (load [0xB0#8])) = .next t := ⟨rfl, _, rfl⟩

/-- TheFiveItemsAreTheWholeState: the sinks hold different records, and a step is taken. -/
theorem test_witness_TheFiveItemsAreTheWholeState :
    { runningState with output := [] }.toBlock = runningState.toBlock ∧
    { runningState with output := [] }.mem = runningState.mem ∧
    { runningState with output := [] }.len = runningState.len ∧ runningState.output ≠ [] ∧
    ∃ t, Sys2Proof.core.run 1 runningState = .next t ∧ t.pos = 3 := ⟨rfl, rfl, rfl, by decide, _, rfl, rfl⟩

/-- The block's state after reset, item by item (R19). -/
theorem test_block_reset : State.reset.toBlock = ⟨0, false, .none, 0, 0⟩ := by decide

/-- AStreamOfAcceptedInstructionsEndsCleanly: padding between instructions, and the empty list. -/
theorem test_witness_AStreamOfAcceptedInstructionsEndsCleanly :
    (∀ i ∈ [Instr.pad, .mov89Reg 3 0, .pad, .movImm16 7 0x8000#16],
      i.wellFormed = true ∧ i.accepted = true) ∧
    ∀ i ∈ ([] : List Instr), i.wellFormed = true ∧ i.accepted = true := by decide

/-- StepIsTheWindowStep and StepIsTheCursorStep: a window with other bytes beyond `avail`. -/
theorem test_witness_StepIsTheWindowStep :
    runningState.pos ≤ runningState.len ∧ WindowShows #v[0xB0#8, 0x05#8, 0xEE#8, 0xEE#8] runningState := by
  refine ⟨by decide, fun k hk => ?_⟩
  match k, hk with
  | 0, _ => rfl
  | 1, _ => rfl

/-- DecodeReadsOnlyTheValidWindowBytes: windows that differ beyond `avail`. -/
theorem test_witness_DecodeReadsOnlyTheValidWindowBytes :
    ∀ k : Fin 4, k.val < 2 → (#v[0x8A#8, 0x56#8, 0x00#8, 0x00#8] : Vector Byte 4)[k] =
      (#v[0x8A#8, 0x56#8, 0xEE#8, 0xEE#8] : Vector Byte 4)[k] := by decide

/-- NumbersAreSpelledInDecimalAndHex: its three clauses have instances; the least negative displacement. -/
theorem test_witness_NumbersAreSpelledInDecimalAndHex :
    dec (-32768) = "-32768".toList ∧ dec 0 = "0".toList ∧ hex2 0xAB#8 = "AB".toList := by decide

end Sys2Proof.Tests
end

section
/-! PROOFS. Signed values of fields (R6, R26, R44, R45): `signed` is `signed_M` of the raw bits, at every
width; the number's range; and that it gives the raw bits back. -/

namespace Sys2Proof.Machine

/-! ### `signed_M` as a number -/

theorem signedValue_of_lt {M v : Nat} (h : v < 2 ^ (M - 1)) : signedValue M v = v := if_pos h

theorem signedValue_of_le {M v : Nat} (h : 2 ^ (M - 1) ≤ v) : signedValue M v = v - 2 ^ M :=
  if_neg (Nat.not_lt.2 h)

theorem signedValue_bounds {M v : Nat} (hM : 0 < M) (h : v < 2 ^ M) :
    -2 ^ (M - 1) ≤ signedValue M v ∧ signedValue M v < 2 ^ (M - 1) := by
  have hpow : (2 : Int) ^ M = 2 * 2 ^ (M - 1) := (mul_pow_sub_one hM.ne' 2).symm
  zify at h
  rcases Nat.lt_or_ge v (2 ^ (M - 1)) with hv | hv
  · rw [signedValue_of_lt hv]
    zify at hv
    omega
  · rw [signedValue_of_le hv]
    zify at hv
    omega

/-- Taking `2 ^ M` off does not change the residue modulo `2 ^ M`. -/
theorem signedValue_emod {M v : Nat} (h : v < 2 ^ M) : signedValue M v % 2 ^ M = v := by
  have hmod : (v : Int) % 2 ^ M = v := Int.emod_eq_of_lt (by positivity) (mod_cast h)
  rcases Nat.lt_or_ge v (2 ^ (M - 1)) with hv | hv
  · rw [signedValue_of_lt hv, hmod]
  · rw [signedValue_of_le hv, Int.sub_emod_right, hmod]

/-! ### The value of a field -/

/-- The top bit is set exactly from `2 ^ (n - 1)` on, so testing it and comparing the number agree. -/
theorem signed_eq_signedValue {n : Nat} (v : BitVec n) : signed v = signedValue n v.toNat := by
  rcases Nat.lt_or_ge v.toNat (2 ^ (n - 1)) with hv | hv
  · simp [signed, BitVec.msb_eq_decide, Nat.not_le.2 hv, signedValue_of_lt hv]
  · simp [signed, BitVec.msb_eq_decide, hv, signedValue_of_le hv]

theorem value8_eq (d : Byte) : value8 d = .i8 (signedValue 8 d.toNat) :=
  congrArg Value.i8 (signed_eq_signedValue d)

theorem value16_eq (h : Half) : value16 h = .i16 (signedValue 16 h.toNat) :=
  congrArg Value.i16 (signed_eq_signedValue h)

theorem value16_halfOf (lo hi : Byte) :
    value16 (halfOf lo hi) = .i16 (signedValue 16 (lo.toNat + 256 * hi.toNat)) := by
  rw [value16_eq, halfOf_toNat]

theorem valueInRange_value8 (d : Byte) : ValueInRange (value8 d) := by
  rw [value8_eq]
  obtain ⟨hlow, hhigh⟩ := signedValue_bounds (by decide) d.isLt
  exact ⟨hlow, Int.le_of_lt_add_one hhigh⟩

theorem valueInRange_value16 (h : Half) : ValueInRange (value16 h) := by
  rw [value16_eq]
  obtain ⟨hlow, hhigh⟩ := signedValue_bounds (by decide) h.isLt
  exact ⟨hlow, Int.le_of_lt_add_one hhigh⟩

/-- Settles O8: the field's number is `halfOf_toNat`, and the rest is what `signed_M` does at widths 8 and
16. -/
theorem fieldsAreLittleEndianAndSigned : Obligations.FieldsAreLittleEndianAndSigned := by
  intro lo hi
  have hfield : lo.toNat + 256 * hi.toNat < 2 ^ 16 := halfOf_toNat lo hi ▸ (halfOf lo hi).isLt
  exact ⟨halfOf_toNat lo hi, value8_eq lo, valueInRange_value8 lo, signedValue_emod lo.isLt,
    value16_halfOf lo hi, valueInRange_value16 _, mod_cast signedValue_emod hfield⟩

end Sys2Proof.Machine
end

section
/-! PROOFS. What each meaning and each step answers, written with the terms of `Safety.lean`: every statement
about one step of the machine is a case analysis of `Taken`. -/

namespace Sys2Proof

/-! ### The refused forms -/

/-- `i` is one of the three refused forms of `0x8B`, with the ModRM byte `m` (R77 to R79). -/
def Instr.IsRefused (i : Instr) (m : Byte) : Prop :=
  i = .unsupported8BDisp8 m ∨ i = .unsupported8BDisp16 m ∨ i = .unsupported8BReg m

theorem Instr.IsRefused.length_eq {i : Instr} {m : Byte} (h : i.IsRefused m) : i.length = 2 := by
  obtain rfl | rfl | rfl := h <;> rfl

theorem Instr.IsRefused.ne_pad {i : Instr} {m : Byte} (h : i.IsRefused m) : i ≠ .pad := by
  obtain rfl | rfl | rfl := h <;> nofun

theorem le_toNat_of_modeOf_ne {m : Byte} (h : modeOf m ≠ .memoryNoDisp) : 64 ≤ m.toNat := by
  have := mt (modeOf_eq_iff m).1.2 h
  omega

theorem not_isRefused_of_decodeMovRmReg {w : Width} {m m' : Byte} {rest : List Byte} {i : Instr}
    (h : decodeMovRmReg w m rest = .ok i) : ¬ i.IsRefused m' := by
  unfold decodeMovRmReg at h
  split at h <;> cases h <;> simp [Instr.IsRefused]

theorem of_decodeMovRegRm_refused {w : Width} {m m' : Byte} {rest : List Byte} {i : Instr}
    (h : decodeMovRegRm w m rest = .ok i) (hi : i.IsRefused m') :
    w = .w16 ∧ m' = m ∧ modeOf m ≠ .memoryNoDisp := by
  unfold decodeMovRegRm at h
  split at h <;> cases h <;> simp_all [Instr.IsRefused]

/-- A refused form is read only from `0x8B` and a ModRM byte whose `mod` is not 00 (R53). -/
theorem eq_cons_of_decode_refused {bs : List Byte} {i : Instr} {m : Byte} (h : decode bs = .ok i)
    (hi : i.IsRefused m) : ∃ rest, bs = 0x8B#8 :: m :: rest ∧ 64 ≤ m.toNat := by
  -- Of the decoder's arms only the unknown row and the two of format `RM` are not literally another instruction.
  unfold decode at h
  split at h
  · cases h
  next b rest =>
    split at h
    case h_2 hc =>
      obtain ⟨-, hlen, -⟩ := unknownRow_spec b hc
      cases h
      cases hlen.symm.trans hi.length_eq
    case h_8 => exact absurd hi (not_isRefused_of_decodeMovRmReg h)
    case h_9 w m' rest' hc =>
      obtain ⟨rfl, rfl, hm⟩ := of_decodeMovRegRm_refused h hi
      obtain ⟨-, -, -, -, hb, -⟩ := byte_of_classify b
      exact ⟨rest', by rw [hb hc], le_toNat_of_modeOf_ne hm⟩
    all_goals cases h <;> simp [Instr.IsRefused] at hi

end Sys2Proof

namespace Sys2Proof.Machine

/-! ### What each meaning answers -/

/-- Padding moves the cursor by one; a refused form takes `UnsupportedForm`; every other instruction emits one
record and moves the cursor by its length. -/
theorem exec_cases (i : Instr) (s : State) :
    (i = .pad ∧ exec i s = .next (advance 1 s)) ∨
    (∃ m, i.IsRefused m ∧ exec i s = .next (unsupportedFrom s m)) ∨
    (i ≠ .pad ∧ ∃ r, exec i s = .next (emitted s i.length r)) := by
  cases i with
  | pad => exact .inl ⟨rfl, rfl⟩
  | unsupported8BDisp8 m => exact .inr (.inl ⟨m, .inl rfl, rfl⟩)
  | unsupported8BDisp16 m => exact .inr (.inl ⟨m, .inr (.inl rfl), rfl⟩)
  | unsupported8BReg m => exact .inr (.inl ⟨m, .inr (.inr rfl), rfl⟩)
  | _ => exact .inr (.inr ⟨nofun, _, rfl⟩)

theorem byteAt_congr {s t : State} (hm : t.mem = s.mem) (hl : t.len = s.len) (a : Nat) :
    byteAt t a = byteAt s a := by
  rw [byteAt, byteAt, hm, hl]

/-- Settles O23: the three cases of `exec_cases` keep the frame. -/
theorem everyMeaningKeepsItsFrame : Obligations.EveryMeaningKeepsItsFrame := by
  intro i s t h
  obtain ⟨rfl, he⟩ | ⟨m, hi, he⟩ | ⟨hi, r, he⟩ := exec_cases i s
  all_goals cases he.symm.trans h
  · exact ⟨rfl, rfl, fun _ => rfl, rfl, rfl, .inr ⟨rfl, rfl, rfl, rfl⟩⟩
  · rw [hi.length_eq, if_neg hi.ne_pad]
    exact ⟨rfl, rfl, fun _ => rfl, rfl, ⟨_, rfl⟩, .inl ⟨m, hi⟩⟩
  · rw [if_neg hi]
    exact ⟨rfl, rfl, fun _ => rfl, rfl, ⟨r, rfl⟩, .inr ⟨rfl, rfl, rfl, rfl⟩⟩

/-! ### What each step answers -/

/-- A step that answers `t` from `s`, by what it does: it stands still (R62), skips padding, emits a record and
goes on, or raises one of the two terminal exceptions (R86, R87). -/
inductive Taken (s : State) : State → Prop
  | stays (h : s.halted = true ∨ s.pos = s.len) : Taken s s
  | skips (hr : Running s) : Taken s (advance 1 s)
  | emits (n : Nat) (r : Record) (hr : Running s) (hn : 1 ≤ n ∧ n ≤ 4) (hp : s.pos + n ≤ s.len) :
      Taken s (emitted s n r)
  | truncates (hr : Running s) (hp : s.len ≤ s.pos + 3) : Taken s (truncatedFrom s)
  | refuses (m : Byte) (hr : Running s) (hb : byteAt s s.pos = some 0x8B#8)
      (hm : byteAt s (s.pos + 1) = some m) (hmod : 64 ≤ m.toNat) : Taken s (unsupportedFrom s m)

theorem byteAt_of_window_getElem? {s : State} {k : Nat} {b : Byte} (h : (window s)[k]? = some b) :
    byteAt s (s.pos + k) = some b := by
  rw [window_getElem?] at h
  split at h
  · next hk => rw [avail_eq] at hk; exact (byteAt_of_lt (by omega)).trans h
  · cases h

theorem takeException_truncated {s : State} (hp : s.pos ≤ s.len) :
    takeException (.truncated (s.len - s.pos)) s = truncatedFrom s := by
  simp [takeException, truncatedFrom, advance, halt, emit, Nat.add_sub_cancel' hp]

theorem taken_of_step {s t : State} (h : step s = .next t) : Taken s t := by
  obtain ⟨hh, hs⟩ | ⟨hh, hp, hs⟩ | ⟨hh, hp, hs⟩ | ⟨hh, hp, hl, -, hs⟩ | ⟨hh, i, hd, hl, hs⟩ :=
    step_cases s
  · cases hs.symm.trans h; exact .stays (.inl hh)
  · cases hs.symm.trans h
  · cases hs.symm.trans h; exact .stays (.inr hp)
  · rw [takeException_truncated hp.le] at hs
    cases hs.symm.trans h; exact .truncates ⟨hh, hp⟩ hl
  · have hb := length_bounds i
    have hr : Running s := ⟨hh, by omega⟩
    obtain ⟨rfl, he⟩ | ⟨m, hi, he⟩ | ⟨-, r, he⟩ := exec_cases i s
    all_goals cases (hs.trans he).symm.trans h
    · exact .skips hr
    · obtain ⟨rest, hw, hm⟩ := eq_cons_of_decode_refused hd hi
      exact .refuses m hr (byteAt_of_window_getElem? (k := 0) (by simp [hw]))
        (byteAt_of_window_getElem? (k := 1) (by simp [hw])) hm
    · exact .emits _ r hr hb hl

/-! ### The status bit, the failure report and the invariant -/

/-- Settles O25: of the things a step can do, only the two terminal exceptions set `halted`. -/
theorem haltedIsSetOnlyByTheTerminalOutcomes : Obligations.HaltedIsSetOnlyByTheTerminalOutcomes := by
  refine ⟨rfl, fun _ => rfl, fun _ => step_of_halted, fun s t hh h => ⟨fun ht => ?_, ?_⟩⟩
  · cases taken_of_step h with
    | stays => cases hh.symm.trans ht
    | skips => cases hh.symm.trans ht
    | emits => cases hh.symm.trans ht
    | truncates => exact .inl rfl
    | refuses m => exact .inr ⟨m, rfl⟩
  · rintro (rfl | ⟨m, rfl⟩) <;> rfl

/-- Settles O26: the two terminal exceptions write the report, and nothing else a step does touches it. -/
theorem failureReportIsWrittenOnlyByTheHaltingStep :
    Obligations.FailureReportIsWrittenOnlyByTheHaltingStep := by
  intro s t _ h
  cases taken_of_step h with
  | stays => rw [if_neg (by simp)]; exact ⟨rfl, rfl, rfl⟩
  | skips => rw [if_neg (by simp)]; exact ⟨rfl, rfl, rfl⟩
  | emits => rw [if_neg (by simp [emitted])]; exact ⟨rfl, rfl, rfl⟩
  | truncates hr => rw [if_pos ⟨hr.1, rfl⟩]; exact ⟨rfl, .inl ⟨rfl, rfl⟩⟩
  | refuses m hr _ hm hmod =>
    rw [if_pos ⟨hr.1, rfl⟩]
    exact ⟨rfl, .inr ⟨rfl, rfl, m, hm, by omega⟩⟩

/-- A step that goes on leaves the report at its reset values. -/
theorem legalStatus_advance {s : State} (hh : s.halted = false) (h : LegalStatus s) (n : Nat) :
    LegalStatus (advance n s) := by
  simpa [LegalStatus, hh] using h

theorem legalStatus_emitted {s : State} (hh : s.halted = false) (h : LegalStatus s) (n : Nat)
    (r : Record) : LegalStatus (emitted s n r) :=
  legalStatus_advance (s := emit r n s) hh h n

theorem legalStatus_truncatedFrom {s : State} (hr : Running s) (hp : s.len ≤ s.pos + 3) :
    LegalStatus (truncatedFrom s) :=
  .inl ⟨rfl, rfl, rfl, hr.2, hp⟩

theorem legalStatus_unsupportedFrom {s : State} {m : Byte} (hb : byteAt s s.pos = some 0x8B#8)
    (hm : byteAt s (s.pos + 1) = some m) (hmod : 64 ≤ m.toNat) : LegalStatus (unsupportedFrom s m) :=
  .inr ⟨rfl, rfl, rfl, hb, m, hm, hmod⟩

/-- Settles O36: each thing a step can do leaves the cursor within the stream, which it does not touch, and a
status that R14 and R15 allow. -/
theorem everyStepKeepsTheInvariant : Obligations.EveryStepKeepsTheInvariant := by
  rintro s t ⟨hpos, hwf, hin, hst⟩ h
  cases taken_of_step h with
  | stays => exact ⟨hpos, hwf, hin, hst⟩
  | skips hr => exact ⟨hr.2, hwf, hin, legalStatus_advance hr.1 hst 1⟩
  | emits n r hr hn hp => exact ⟨hp, hwf, hin, legalStatus_emitted hr.1 hst n r⟩
  | truncates hr hp => exact ⟨Nat.le_refl _, hwf, hin, legalStatus_truncatedFrom hr hp⟩
  | refuses m hr hb hm hmod =>
    exact ⟨(byteAt_eq_some.1 hm).1, hwf, hin, legalStatus_unsupportedFrom hb hm hmod⟩

/-! ### Reset -/

theorem legal_applyReset {s : State} (h : Legal s) : Legal (applyReset s) :=
  ⟨Nat.zero_le _, h.mem_wf, h.mem_in_stream, rfl, rfl, rfl⟩

theorem memRead_zero_applyReset (s : State) :
    memRead (applyReset s) 0 (min 4 s.len) = some (window (applyReset s)) :=
  memRead_eq_some.2 ⟨by simp, rfl⟩

/-- Settles O32: with reset the edge answers `applyReset`. -/
theorem resetWritesEveryItemOfTheState : Obligations.ResetWritesEveryItemOfTheState := fun s =>
  ⟨rfl, applyReset s, rfl, rfl, rfl, rfl, rfl, rfl, rfl, rfl, rfl, legal_applyReset,
    memRead_zero_applyReset s⟩

theorem legal_reset : Legal State.reset := ⟨Nat.le_refl _, rfl, by simp, rfl, rfl, rfl⟩

theorem orderedOutput_reset : OrderedOutput State.reset := by simp [OrderedOutput]

/-- Settles O33: nothing is listed and nothing emitted, and the cursor stands at the end of the stream. -/
theorem resetStateIsLegalAndDone : Obligations.ResetStateIsLegalAndDone :=
  ⟨legal_reset, orderedOutput_reset, ⟨rfl, rfl⟩, step_of_end (s := State.reset) rfl rfl⟩

end Sys2Proof.Machine
end

section
/-! PROOFS. The model's step and the spec's `Step` around `Decode(win, avail)` (R60, R61): the effect of a step is
told by what `Decode` answers on any window that shows the stream's bytes. What a step depends on follows. -/

namespace Sys2Proof.Machine

/-! ### The window's bytes -/

/-- The four bytes of a window, in stream order. -/
def winBytes (win : Vector Byte 4) : List Byte := [win[0], win[1], win[2], win[3]]

theorem winBytes_getElem? (win : Vector Byte 4) (k : Fin 4) : (winBytes win)[k.val]? = some win[k] := by
  fin_cases k <;> rfl

/-- Of a window that shows the stream, the decoder sees the first `avail` bytes. -/
theorem window_eq_take {s : State} {win : Vector Byte 4} (hw : WindowShows win s) :
    window s = (winBytes win).take (avail s) := by
  refine List.ext_getElem? fun k => ?_
  rw [window_getElem?, List.getElem?_take]
  split
  · next hk =>
    have h4 : k < 4 := hk.trans_le (Nat.min_le_left ..)
    rw [winBytes_getElem? win ⟨k, h4⟩, hw ⟨k, h4⟩ hk]
  · rfl

theorem windowShows_winSignal (s : State) : WindowShows (winSignal s) s := by
  intro k _
  fin_cases k <;> rfl

/-- A window that shows the stream, with the leading byte and the byte after it, where there is one, as given. -/
theorem exists_windowShows {s : State} {b m : Byte} (hb : LeadingByte s b)
    (hm : ∀ m', byteAt s (s.pos + 1) = some m' → m = m') :
    ∃ win, WindowShows win s ∧ win[0] = b ∧ win[1] = m := by
  refine ⟨#v[b, m, s.mem.read (s.pos + 2), s.mem.read (s.pos + 3)], fun k hk => ?_, rfl, rfl⟩
  fin_cases k
  · exact (byteAt_eq_some.1 hb).2.symm
  · have h1 : 1 < min 4 (s.len - s.pos) := hk
    exact hm _ (byteAt_of_lt (by omega))
  · rfl
  · rfl

theorem avail_congr {s s' : State} (hpos : s'.pos = s.pos) (hlen : s'.len = s.len) :
    avail s' = avail s := by
  rw [avail, avail, hpos, hlen]

/-- A window shows the same bytes of two streams that agree from the cursor on. -/
theorem WindowShows.congr {win : Vector Byte 4} {s s' : State} (hw : WindowShows win s)
    (hpos : s'.pos = s.pos) (hlen : s'.len = s.len)
    (hbytes : ∀ a, s.pos ≤ a → byteAt s' a = byteAt s a) : WindowShows win s' := by
  intro k hk
  rw [avail_congr hpos hlen] at hk
  have hk' : k.val < min 4 (s.len - s.pos) := hk
  have hread := (hbytes (s.pos + k) (by omega)).trans (byteAt_of_lt (by omega))
  rw [hpos, (byteAt_eq_some.1 hread).2]
  exact hw k hk

/-! ### The effect of an outcome -/

/-- The effect of an outcome of `Decode` and of the number of bytes consumed: the cases of R61. -/
def applyOutcome : StepOutcome × Nat → State → State
  | (.skip, n), s => advance n s
  | (.emit r, n), s => retire r n s
  | (.halt .truncated, n), s => takeException (.truncated n) s
  | (.halt (.unsupportedForm m), n), s =>
    advance n (halt .unsupportedForm (s.pos + 1) (emit (.failUnsupportedForm m (s.pos + 1)) n s))

theorem applyOutcome_pos (o : StepOutcome × Nat) (s : State) :
    (applyOutcome o s).pos = s.pos + o.2 := by
  obtain ⟨_ | r | _ | m, n⟩ := o <;> rfl

/-- On two states that are not halted and have the same cursor, an outcome emits the same records and leads to
the same cursor and status, and to the same report where it halts. -/
theorem applyOutcome_congr (o : StepOutcome × Nat) {s s' : State} (hh : s.halted = false)
    (hh' : s'.halted = false) (hpos : s'.pos = s.pos) :
    ∃ es, (applyOutcome o s).output = s.output ++ es ∧ (applyOutcome o s').output = s'.output ++ es ∧
      (applyOutcome o s').pos = (applyOutcome o s).pos ∧
      (applyOutcome o s').halted = (applyOutcome o s).halted ∧
      ((applyOutcome o s).halted = true →
        (applyOutcome o s').faultKind = (applyOutcome o s).faultKind ∧
        (applyOutcome o s').faultOffset = (applyOutcome o s).faultOffset ∧
        (applyOutcome o s').faultStart = (applyOutcome o s).faultStart) := by
  obtain ⟨_ | r | _ | m, n⟩ := o
  · exact ⟨[], by simp [applyOutcome, hh, hh', hpos]⟩
  · exact ⟨[⟨s.pos, n, r⟩], by simp [applyOutcome, hh, hh', hpos]⟩
  · exact ⟨[⟨s.pos, n, .failTruncated (s.pos + n)⟩], by simp [applyOutcome, hpos]⟩
  · exact ⟨[⟨s.pos, n, .failUnsupportedForm m (s.pos + 1)⟩], by simp [applyOutcome, hpos]⟩

theorem windowStep_of_still {s : State} (h : s.halted = true ∨ s.pos = s.len) (win : Vector Byte 4) :
    windowStep win s = s := by
  obtain h | h := h <;> simp [windowStep, blockStep, h]

theorem windowStep_of_running {s : State} (hr : Running s) (win : Vector Byte 4) :
    windowStep win s = applyOutcome (windowDecode win (avail s)) s := by
  obtain ⟨hh, hp⟩ := hr
  simp only [windowStep, blockStep, hh, hp.ne, avail]
  obtain ⟨_ | r | _ | m, n⟩ := windowDecode win (min Config.windowBytes (s.len - s.pos))
  all_goals simp [applyOutcome, takeException, advance, retire, emit, halt, hh]

/-! ### The decoder on the first bytes of a window

For each class, the patterns by which `decode` finds its list too short hold exactly where `Decode` compares
`avail` with `need`; otherwise both read the same fields. -/

/-- What a running step does with the bytes of its window: `runStep` behind its two guards. -/
def afterDecode (bs : List Byte) (s : State) : Host.Outcome State Fault Refusal :=
  match decode bs with
  | .error .endOfStream => .next s
  | .error .truncated => .next (takeException (.truncated bs.length) s)
  | .ok i => exec i s

theorem step_eq_afterDecode {s : State} (hr : Running s) : step s = afterDecode (window s) s :=
  (if_neg (by simp [hr.1])).trans (if_neg (Nat.not_lt.2 hr.2.le))

theorem afterDecode_of_ok {bs : List Byte} {i : Instr} (h : decode bs = .ok i) (s : State) :
    afterDecode bs s = exec i s := by
  simp [afterDecode, h]

theorem windowDecode_pad {win : Vector Byte 4} (hc : classify win[0] = .pad) (n : Nat) :
    windowDecode win n = (.skip, 1) := by
  simp [windowDecode, hc]

theorem windowDecode_unknown {win : Vector Byte 4} (hc : classify win[0] = .unknown) (n : Nat) :
    windowDecode win n = (.emit (.unknown win[0]), 1) := by
  simp [windowDecode, hc]

section
variable (win : Vector Byte 4) (s : State) {n : Nat} (hn : 1 ≤ n ∧ n ≤ 4)
include hn

theorem afterDecode_immediate {w : Width} (hc : classify win[0] = .movRegImm w) :
    afterDecode ((winBytes win).take n) s = .next (applyOutcome (windowDecode win n) s) := by
  obtain rfl | rfl | rfl | rfl : n = 1 ∨ n = 2 ∨ n = 3 ∨ n = 4 := by omega
  all_goals
    cases w
    all_goals
      simp only [afterDecode, winBytes, List.take, decode, windowDecode, hc]
      rfl

theorem afterDecode_movRmReg {w : Width} (hc : classify win[0] = .movRmReg w) :
    afterDecode ((winBytes win).take n) s = .next (applyOutcome (windowDecode win n) s) := by
  have hne : win[0] ≠ 0x8B#8 := fun h => by simp [h] at hc
  obtain rfl | rfl | rfl | rfl : n = 1 ∨ n = 2 ∨ n = 3 ∨ n = 4 := by omega
  · simp [afterDecode, winBytes, decode, windowDecode, windowDecodeRM, applyOutcome, hc]
  all_goals
    cases w <;> cases hm : modeOf win[1]
    all_goals
      simp only [afterDecode, winBytes, List.take, decode, decodeMovRmReg, windowDecode,
        windowDecodeRM, modRMSplit, hc, hm, hne, false_and, if_false]
      rfl

theorem afterDecode_movRegRm {w : Width} (hc : classify win[0] = .movRegRm w) :
    afterDecode ((winBytes win).take n) s = .next (applyOutcome (windowDecode win n) s) := by
  have hb : win[0] = 0x8B#8 ↔ w = .w16 := by
    obtain ⟨-, -, -, h8A, h8B, -⟩ := byte_of_classify win[0]
    cases w with
    | w8 => simp [h8A hc]
    | w16 => simp [h8B hc]
  obtain rfl | rfl | rfl | rfl : n = 1 ∨ n = 2 ∨ n = 3 ∨ n = 4 := by omega
  · simp [afterDecode, winBytes, decode, windowDecode, windowDecodeRM, applyOutcome, hc]
  all_goals
    cases w <;> cases hm : modeOf win[1]
    all_goals
      simp only [afterDecode, winBytes, List.take, decode, decodeMovRegRm, windowDecode,
        windowDecodeRM, modRMSplit, hc, hm, hb]
      rfl

/-- The first bytes of a window, decoded and run, have the effect that `Decode` of the window gives. -/
theorem afterDecode_take :
    afterDecode ((winBytes win).take n) s = .next (applyOutcome (windowDecode win n) s) := by
  have hcons : (winBytes win).take n = win[0] :: [win[1], win[2], win[3]].take (n - 1) :=
    List.take_cons hn.1
  cases hc : classify win[0] with
  | pad =>
    rw [hcons, afterDecode_of_ok (decode_pad _ hc), windowDecode_pad hc]
    rfl
  | unknown =>
    rw [hcons, afterDecode_of_ok (decode_unknown _ hc), exec_unknownRow, windowDecode_unknown hc]
    rfl
  | movRegImm w => exact afterDecode_immediate win s hn hc
  | movRmReg w => exact afterDecode_movRmReg win s hn hc
  | movRegRm w => exact afterDecode_movRegRm win s hn hc

end

/-! ### The step is the window step -/

theorem avail_bounds {s : State} (hp : s.pos < s.len) : 1 ≤ avail s ∧ avail s ≤ 4 := by
  rw [avail_eq]
  omega

theorem step_eq_applyOutcome {s : State} {win : Vector Byte 4} (hr : Running s)
    (hw : WindowShows win s) : step s = .next (applyOutcome (windowDecode win (avail s)) s) := by
  rw [step_eq_afterDecode hr, window_eq_take hw, afterDecode_take win s (avail_bounds hr.2)]

theorem step_of_still {s : State} (h : s.halted = true ∨ s.pos = s.len) : step s = .next s := by
  cases hh : s.halted with
  | true => exact step_of_halted hh
  | false => exact step_of_end hh (by simpa [hh] using h)

theorem step_eq_windowStep {s : State} {win : Vector Byte 4} (h : s.halted = true ∨ s.pos ≤ s.len)
    (hw : WindowShows win s) : step s = .next (windowStep win s) := by
  by_cases hstill : s.halted = true ∨ s.pos = s.len
  · rw [step_of_still hstill, windowStep_of_still hstill]
  · have hr : Running s := by
      simp only [not_or, Bool.not_eq_true] at hstill
      exact ⟨hstill.1, lt_of_le_of_ne (by simpa [hstill.1] using h) hstill.2⟩
    rw [step_eq_applyOutcome hr hw, windowStep_of_running hr]

/-- Settles O43: where the machine stands still both steps do nothing, and where it runs both have the effect of
the one outcome that `Decode` gives. -/
theorem stepIsTheWindowStep : Obligations.StepIsTheWindowStep :=
  fun _ _ hp hw => step_eq_windowStep (.inr hp) hw

/-! ### How far a step moves the cursor -/

theorem insnLen_bounds (b m : Byte) : 1 ≤ insnLen b m ∧ insnLen b m ≤ 4 := by
  unfold insnLen
  split
  all_goals cases modeOf m <;> simp [dispLen]

/-- The format `RM` part consumes the two bytes it examines and the displacement bytes, or all there are; of `0x8B`
it never asks for a displacement byte (R53). -/
theorem windowDecodeRM_consumed (dir : Bool) (w : Width) (win : Vector Byte 4) (n : Nat) :
    (windowDecodeRM dir w win n).2 =
      min (if win[0] = 0x8B#8 then 2 else 2 + dispLen (modRMSplit win[1]).mode) n := by
  simp only [windowDecodeRM, apply_ite Prod.snd]
  by_cases hm : (modRMSplit win[1]).mode = .memoryNoDisp
  · simp only [hm, ne_eq, not_true, and_false, if_false, dispLen]
    split_ifs <;> omega
  · simp only [hm, ne_eq, not_false_eq_true, and_true]
    split_ifs <;> omega

/-- `Decode` consumes the bytes its instruction needs, or all there are. -/
theorem windowDecode_consumed (win : Vector Byte 4) {n : Nat} (hn : 1 ≤ n) :
    (windowDecode win n).2 = min (insnLen win[0] win[1]) n := by
  obtain ⟨-, h88, h89, h8A, h8B, -⟩ := byte_of_classify win[0]
  cases hc : classify win[0] with
  | pad => simp [windowDecode_pad hc, insnLen, hc, hn]
  | unknown => simp [windowDecode_unknown hc, insnLen, hc, hn]
  | movRegImm w =>
    have hneed : insnLen win[0] win[1] = 2 + wideBit w := by cases w <;> simp [insnLen, hc, wideBit]
    simp only [windowDecode, hc, apply_ite Prod.snd, hneed]
    split_ifs <;> omega
  | movRmReg w =>
    cases w <;> simp [windowDecode, windowDecodeRM_consumed, modRMSplit, insnLen, hc, h88, h89]
  | movRegRm w =>
    cases w <;> simp [windowDecode, windowDecodeRM_consumed, modRMSplit, insnLen, hc, h8A, h8B]
/-- Settles O28: the cursor moves by what `Decode` consumes. -/
theorem aTakenStepAdvancesTheCursorByOneToFour :
    Obligations.ATakenStepAdvancesTheCursorByOneToFour := by
  intro s b m hr hb hm
  obtain ⟨win, hw, h0, h1⟩ := exists_windowShows hb hm
  have hp := hr.2
  have hpos := applyOutcome_pos (windowDecode win (avail s)) s
  rw [windowDecode_consumed win (avail_bounds hp).1, h0, h1] at hpos
  have havail := avail_eq s
  have hlen := insnLen_bounds b m
  exact ⟨_, step_eq_applyOutcome hr hw, by omega, by omega, by omega, by omega⟩

/-! ### What a step depends on -/

/-- Settles O31: one window shows the bytes of both streams, so both steps have the effect of one outcome. -/
theorem aStepDependsOnlyOnTheBytesFromTheCursorOn :
    Obligations.AStepDependsOnlyOnTheBytesFromTheCursorOn := by
  intro s s' hr hr' hpos hlen hbytes
  have hw := windowShows_winSignal s
  have hstep := step_eq_applyOutcome hr hw
  have hstep' := step_eq_applyOutcome hr' (hw.congr hpos hlen hbytes)
  rw [avail_congr hpos hlen] at hstep'
  obtain ⟨es, h⟩ := applyOutcome_congr (windowDecode (winSignal s) (avail s)) hr.1 hr'.1 hpos
  exact ⟨_, _, es, hstep, hstep', h⟩

theorem not_past_end_of_step {s t : State} (h : step s = .next t) : s.halted = true ∨ s.pos ≤ s.len := by
  by_contra hp
  simp only [not_or, Bool.not_eq_true, Nat.not_le] at hp
  cases (step_of_past_end hp.1 hp.2).symm.trans h

/-- One step of two machines that differ in their sinks' logs only. -/
theorem step_of_same_block {s s' t : State} (hb : s'.toBlock = s.toBlock) (hm : s'.mem = s.mem)
    (hl : s'.len = s.len) (h : step s = .next t) :
    ∃ es t', step s' = .next t' ∧ t'.toBlock = t.toBlock ∧ t'.mem = t.mem ∧ t'.len = t.len ∧
      t.output = s.output ++ es ∧ t'.output = s'.output ++ es := by
  have hw := windowShows_winSignal s
  have hp := not_past_end_of_step h
  have hw' : WindowShows (winSignal s) s' :=
    hw.congr (by rw [hb]) hl fun a _ => byteAt_congr hm hl a
  have hstep' := step_eq_windowStep (by rwa [hb, hl]) hw'
  cases (step_eq_windowStep hp hw).symm.trans h
  refine ⟨(blockStep (winSignal s) s.len s.toBlock).2.toList, _, hstep', ?_, hm, hl, rfl, ?_⟩
  all_goals simp only [windowStep, hb, hl]

/-- Settles O50, by induction on the number of steps. -/
theorem theFiveItemsAreTheWholeState : Obligations.TheFiveItemsAreTheWholeState := by
  intro s s' t k hb hm hl h
  induction k generalizing s s' with
  | zero =>
    cases h
    exact ⟨[], s', rfl, hb, hm, hl, by simp, by simp⟩
  | succ k ih =>
    obtain ⟨u, hstep, hrun⟩ := step_of_run_succ h
    obtain ⟨es, u', hstep', hb', hm', hl', ho, ho'⟩ := step_of_same_block hb hm hl hstep
    obtain ⟨fs, t', hrun', hbt, hmt, hlt, hot, hot'⟩ := ih u u' hb' hm' hl' hrun
    exact ⟨es ++ fs, t', (run_succ_of_step k hstep').trans hrun', hbt, hmt, hlt,
      by rw [hot, ho, List.append_assoc], by rw [hot', ho', List.append_assoc]⟩

end Sys2Proof.Machine
end

section
/-! PROOFS. What a step hands to the sink, and the outer signals that show it (R59, R62; spec/00_scope.md
section 6): every step moves the cursor by 0 to 4 bytes and appends at most one record of exactly those bytes. -/

namespace Sys2Proof.Machine

/-! ### The cursor and the sink's log -/

/-- The bytes a step consumes and the record it may append: a record stands for at least one byte. -/
theorem Taken.consumes {s t : State} (h : Taken s t) :
    ∃ (n : Nat) (o : Option Record), t.pos = s.pos + n ∧ n ≤ 4 ∧
      t.output = s.output ++ o.toList.map (fun r => ⟨s.pos, n, r⟩) ∧ (o.isSome = true → 1 ≤ n) := by
  cases h with
  | stays => exact ⟨0, none, rfl, by omega, by simp, nofun⟩
  | skips => exact ⟨1, none, rfl, by omega, by simp, nofun⟩
  | emits n r _ hn => exact ⟨n, some r, rfl, hn.2, rfl, fun _ => hn.1⟩
  | truncates hr hp =>
    have hpos := hr.2
    exact ⟨s.len - s.pos, some (.failTruncated s.len), (Nat.add_sub_cancel' hpos.le).symm, by omega, rfl,
      fun _ => by omega⟩
  | refuses m => exact ⟨2, some (.failUnsupportedForm m (s.pos + 1)), rfl, by omega, rfl, fun _ => by omega⟩

theorem Taken.stream_eq {s t : State} (h : Taken s t) : t.mem = s.mem ∧ t.len = s.len := by
  cases h <;> exact ⟨rfl, rfl⟩

/-- A log in stream order stays so where the cursor moves on and the record of the bytes passed, if there is one,
is appended: the bytes of the earlier records end at or before the old cursor. -/
theorem OrderedOutput.append {s t : State} {n : Nat} {o : Option Record} (h : OrderedOutput s)
    (hpos : t.pos = s.pos + n) (hn : n ≤ 4)
    (hout : t.output = s.output ++ o.toList.map (fun r => ⟨s.pos, n, r⟩))
    (hrec : o.isSome = true → 1 ≤ n) : OrderedOutput t := by
  obtain ⟨hpair, hbounds⟩ := h
  have hold : ∀ e ∈ s.output, 1 ≤ e.n ∧ e.n ≤ 4 ∧ e.start + e.n ≤ t.pos := fun e he => by
    obtain ⟨h1, h4, hend⟩ := hbounds e he
    exact ⟨h1, h4, by omega⟩
  cases o with
  | none =>
    have hsame : t.output = s.output := by simpa using hout
    exact ⟨hsame ▸ hpair, hsame ▸ hold⟩
  | some r =>
    have hout' : t.output = s.output ++ [⟨s.pos, n, r⟩] := hout
    rw [OrderedOutput, hout']
    refine ⟨List.pairwise_append.2 ⟨hpair, List.pairwise_singleton .., fun e he f hf => ?_⟩,
      fun e he => ?_⟩
    · cases List.mem_singleton.1 hf
      exact (hbounds e he).2.2
    · rcases List.mem_append.1 he with he | he
      · exact hold e he
      · cases List.mem_singleton.1 he
        exact ⟨hrec rfl, hn, hpos.ge⟩

/-- Settles O37: what a step appends begins at the old cursor and ends at the new one. -/
theorem everyStepKeepsTheOutputInStreamOrder : Obligations.EveryStepKeepsTheOutputInStreamOrder := by
  intro s t _ ho h
  obtain ⟨n, o, hpos, hn, hout, hrec⟩ := (taken_of_step h).consumes
  exact ho.append hpos hn hout hrec

/-- Settles O30: nothing a step can do touches the stream. -/
theorem noStepWritesTheStream : Obligations.NoStepWritesTheStream := by
  intro s t h
  obtain ⟨hmem, hlen⟩ := (taken_of_step h).stream_eq
  exact ⟨hmem, hlen, byteAt_congr hmem hlen⟩

/-! ### The outer signals -/

theorem lenSignal_of_step {s t : State} (h : step s = .next t) : lenSignal s = t.pos - s.pos := by
  simp [lenSignal, h, nextOf]

/-- `out` is the record a step appends. -/
theorem outSignal_of_step {s t : State} {n : Nat} {o : Option Record} (h : step s = .next t)
    (hout : t.output = s.output ++ o.toList.map (fun r => ⟨s.pos, n, r⟩)) : outSignal s = o := by
  simp only [outSignal, h, nextOf, hout, List.drop_left]
  cases o <;> rfl

theorem doneSignal_eq_true {s : State} : doneSignal s = true ↔ Done s := by
  simp [doneSignal, Done]

/-- Settles O49: the bytes a step consumes and the record it appends are what the signals show. -/
theorem signalsShowTheStep : Obligations.SignalsShowTheStep := by
  intro s t _ h
  obtain ⟨n, o, hpos, hn, hout, hrec⟩ := (taken_of_step h).consumes
  have hlenSig : lenSignal s = n := by rw [lenSignal_of_step h, hpos, Nat.add_sub_cancel_left]
  have houtSig : outSignal s = o := outSignal_of_step h hout
  rw [outValidSignal, hlenSig, houtSig]
  exact ⟨hpos, hn, hout, fun ho => Nat.one_le_iff_ne_zero.1 (hrec ho), doneSignal_eq_true,
    windowShows_winSignal s⟩

end Sys2Proof.Machine
end

section
/-! PROOFS. `Decode(win, avail)` reads the window's first `avail` bytes only (R25, R60). -/

namespace Sys2Proof.Machine

/-! ### The format `RM` part by its branches -/

/-- The displacement that `Decode` takes from the window (R43, R44). -/
def windowDisp (win : Vector Byte 4) : Mode → Option Value
  | .memoryNoDisp => none
  | .registerDirect => none
  | .memoryDisp8 => some (.i8 (signed win[2]))
  | .memoryDisp16 => some (.i16 (signed (halfOf win[2] win[3])))

/-- What a complete format `RM` instruction with the split ModRM byte `f` comes to. -/
def emitRM (dir : Bool) (w : Width) (f : ModRM) (disp : Option Value) : StepOutcome × Nat :=
  (.emit (if dir then .insn (regOp f.reg w) (rmOp f.mode f.rm w disp)
    else .insn (rmOp f.mode f.rm w disp) (regOp f.reg w)), 2 + dispLen f.mode)

theorem windowDecodeRM_eq (dir : Bool) (w : Width) (win : Vector Byte 4) (n : Nat) :
    windowDecodeRM dir w win n =
      if n < 2 then (.halt .truncated, n)
      else if win[0] = 0x8B#8 ∧ (modRMSplit win[1]).mode ≠ .memoryNoDisp then
        (.halt (.unsupportedForm win[1]), 2)
      else if n < 2 + dispLen (modRMSplit win[1]).mode then (.halt .truncated, n)
      else emitRM dir w (modRMSplit win[1]) (windowDisp win (modRMSplit win[1]).mode) := rfl

/-! ### The bytes read -/

section
variable {win win' : Vector Byte 4} {n : Nat} (h : ∀ k : Fin 4, k.val < n → win[k] = win'[k])
include h

/-- A displacement byte is read only where `avail` covers it. -/
theorem windowDisp_congr {mode : Mode} (hn : 2 + dispLen mode ≤ n) :
    windowDisp win mode = windowDisp win' mode := by
  cases mode with
  | memoryNoDisp => rfl
  | registerDirect => rfl
  | memoryDisp8 =>
    have h2 : win[2] = win'[2] := h 2 hn
    simp only [windowDisp, h2]
  | memoryDisp16 =>
    have h2 : win[2] = win'[2] := h 2 (Nat.lt_of_succ_lt hn)
    have h3 : win[3] = win'[3] := h 3 hn
    simp only [windowDisp, h2, h3]

theorem windowDecodeRM_congr (dir : Bool) (w : Width) :
    windowDecodeRM dir w win n = windowDecodeRM dir w win' n := by
  rw [windowDecodeRM_eq, windowDecodeRM_eq]
  refine ite_congr rfl (fun _ => rfl) fun hn => ?_
  have h0 : win[0] = win'[0] := h 0 (Nat.zero_lt_of_lt (Nat.not_lt.1 hn))
  have h1 : win[1] = win'[1] := h 1 (Nat.not_lt.1 hn)
  rw [h0, h1]
  refine ite_congr rfl (fun _ => rfl) fun _ => ite_congr rfl (fun _ => rfl) fun hneed => ?_
  rw [windowDisp_congr h (Nat.not_lt.1 hneed)]

theorem windowDecode_congr (hn : 1 ≤ n) : windowDecode win n = windowDecode win' n := by
  have h0 : win[0] = win'[0] := h 0 hn
  rw [windowDecode, windowDecode, h0]
  cases classify win'[0] with
  | pad => rfl
  | unknown => rfl
  | movRmReg w => exact windowDecodeRM_congr h false w
  | movRegRm w => exact windowDecodeRM_congr h true w
  | movRegImm w =>
    cases w with
    | w8 =>
      refine ite_congr rfl (fun _ => rfl) fun hneed => ?_
      have h1 : win[1] = win'[1] := h 1 (Nat.not_lt.1 hneed)
      rw [h1]
    | w16 =>
      refine ite_congr rfl (fun _ => rfl) fun hneed => ?_
      have h1 : win[1] = win'[1] := h 1 (Nat.lt_of_succ_lt (Nat.not_lt.1 hneed))
      have h2 : win[2] = win'[2] := h 2 (Nat.not_lt.1 hneed)
      rw [h1, h2]

end

/-! ### Truncation -/

theorem dispLen_le_two (mode : Mode) : dispLen mode ≤ 2 := by cases mode <;> simp [dispLen]

theorem windowDecodeRM_of_truncated {dir : Bool} {w : Width} {win : Vector Byte 4} {n : Nat}
    (h : (windowDecodeRM dir w win n).1 = .halt .truncated) :
    (windowDecodeRM dir w win n).2 = n ∧ n < 4 := by
  have hdisp := dispLen_le_two (modRMSplit win[1]).mode
  rw [windowDecodeRM_eq] at h ⊢
  split_ifs at h ⊢ with h2 hform hneed
  · exact ⟨rfl, by omega⟩
  · cases h
  · exact ⟨rfl, by omega⟩
  · cases h

/-- `Decode` answers `Halt Truncated` only where fewer than `need` bytes are left, and consumes them all. -/
theorem windowDecode_of_truncated {win : Vector Byte 4} {n : Nat}
    (h : (windowDecode win n).1 = .halt .truncated) : (windowDecode win n).2 = n ∧ n < 4 := by
  cases hc : classify win[0] with
  | pad => rw [windowDecode_pad hc] at h; cases h
  | unknown => rw [windowDecode_unknown hc] at h; cases h
  | movRmReg w =>
    simp only [windowDecode, hc] at h ⊢
    exact windowDecodeRM_of_truncated h
  | movRegRm w =>
    simp only [windowDecode, hc] at h ⊢
    exact windowDecodeRM_of_truncated h
  | movRegImm w =>
    have hneed : 2 + wideBit w < 4 := by cases w <;> decide
    simp only [windowDecode, hc] at h ⊢
    split_ifs at h ⊢ with hn
    exact ⟨rfl, hn.trans hneed⟩

/-- Settles O45: `Decode` reads an index of the window only after it compared `avail` with it. -/
theorem decodeReadsOnlyTheValidWindowBytes : Obligations.DecodeReadsOnlyTheValidWindowBytes := by
  intro win win' n h1 h4 h
  have hcount := windowDecode_consumed win h1
  have hneed := insnLen_bounds win[0] win[1]
  exact ⟨windowDecode_congr h h1, by omega, by omega, windowDecode_of_truncated⟩

end Sys2Proof.Machine
end

section
/-! PROOFS. The step written with the sequential byte cursor (R23, R24, R63) is the model's step: reading byte by
byte comes to what `Decode(win, avail)` answers on a window that shows the stream's bytes. -/

namespace Sys2Proof.Machine

/-! ### An outcome of `Decode` as the cursor sees it -/

/-- What the cursor reading comes to where `Decode` answers an outcome and consumes `n` bytes: the outcome with the
cursor `n` bytes on, and for `Halt Truncated` the offset of the missing byte. -/
def cursorResult : StepOutcome × Nat → State → Except Nat (CursorOutcome × State)
  | (.skip, n), s => .ok (.skip, advance n s)
  | (.emit r, n), s => .ok (.emit r, advance n s)
  | (.halt .truncated, n), s => .error (s.pos + n)
  | (.halt (.unsupportedForm m), n), s => .ok (.unsupportedForm m, advance n s)

theorem cursorStep_of_still {s : State} (h : s.halted = true ∨ s.pos = s.len) : cursorStep s = s := by
  refine if_pos (h.imp_right fun hp => ?_)
  simp [hasNext, hp]

/-- The two steps have the same effect where the two decodes have the same outcome. -/
theorem cursorStep_of_cursorDecode {s : State} {o : StepOutcome × Nat} (hr : Running s)
    (h : cursorDecode s = cursorResult o s) : cursorStep s = applyOutcome o s := by
  have hgo : ¬(s.halted = true ∨ ¬hasNext s = true) := by simp [hr.1, hasNext, hr.2]
  rw [cursorStep, if_neg hgo, h]
  obtain ⟨_ | r | _ | m, n⟩ := o
  all_goals simp [cursorResult, applyOutcome, takeException, advance, retire, emit, halt]

/-! ### `NextByte` on a window -/

theorem nextByte_of_lt {t : State} (h : t.pos < t.len) :
    nextByte t = .ok (t.mem.read t.pos, advance 1 t) := if_pos h

theorem nextByte_of_end {t : State} (h : t.len ≤ t.pos) : nextByte t = .error t.pos :=
  if_neg (Nat.not_lt.2 h)

section
variable {α : Type} {win : Vector Byte 4} {s : State} (hp : s.pos ≤ s.len) (hw : WindowShows win s)
include hp hw

/-- After `k` bytes were read the next one is the window's byte at index `k`, or it is missing there. -/
theorem nextByte_bind (k : Nat) (h4 : k < 4) (hk : k ≤ avail s) (f : Byte × State → Except Nat α) :
    nextByte (advance k s) >>= f =
      if avail s < k + 1 then .error (s.pos + avail s) else f (win[k], advance (k + 1) s) := by
  have havail := avail_eq s
  split
  · rw [nextByte_of_end (by simp; omega), advance_pos, show k = avail s by omega]
    rfl
  · have hread : win[k] = s.mem.read (s.pos + k) := hw ⟨k, h4⟩ (by simp; omega)
    rw [nextByte_of_lt (by simp; omega), hread]
    rfl

theorem nextByte_leading_bind (h1 : 1 ≤ avail s) (f : Byte × State → Except Nat α) :
    nextByte s >>= f = f (win[0], advance 1 s) :=
  (nextByte_bind hp hw 0 (by decide) (Nat.zero_le _) f).trans (if_neg (Nat.not_lt.2 h1))

/-- The displacement bytes after the opcode and the ModRM byte. -/
theorem nextDisp_bind (h2 : 2 ≤ avail s) (mode : Mode) (f : Option Value × State → Except Nat α) :
    nextDisp mode (advance 2 s) >>= f =
      if avail s < 2 + dispLen mode then .error (s.pos + avail s)
      else f (windowDisp win mode, advance (2 + dispLen mode) s) := by
  cases mode with
  | memoryNoDisp => exact (if_neg (Nat.not_lt.2 h2)).symm
  | registerDirect => exact (if_neg (Nat.not_lt.2 h2)).symm
  | memoryDisp8 =>
    rw [nextDisp, nextByte_bind hp hw 2 (by decide) h2, apply_ite (· >>= f)]
    rfl
  | memoryDisp16 =>
    rw [nextDisp, nextByte_bind hp hw 2 (by decide) h2]
    by_cases h3 : avail s < 3
    · rw [if_pos h3]
      exact (if_pos (Nat.lt_succ_of_lt h3)).symm
    · rw [if_neg h3]
      dsimp only
      rw [nextByte_bind hp hw 3 (by decide) (Nat.not_lt.1 h3), apply_ite (· >>= f)]
      rfl

/-! ### The decode, class by class -/

theorem cursorDecodeRM_eq (dir : Bool) (w : Width) (h1 : 1 ≤ avail s) :
    cursorDecodeRM dir w win[0] (advance 1 s) =
      cursorResult (windowDecodeRM dir w win (avail s)) s := by
  rw [cursorDecodeRM, nextByte_bind hp hw 1 (by decide) h1, windowDecodeRM_eq]
  by_cases h2 : avail s < 2
  · rw [if_pos h2, if_pos h2]
    rfl
  rw [if_neg h2, if_neg h2]
  by_cases hform : win[0] = 0x8B#8 ∧ (modRMSplit win[1]).mode ≠ .memoryNoDisp
  · dsimp only
    rw [if_pos hform, if_pos hform]
    rfl
  · dsimp only
    rw [if_neg hform, if_neg hform, nextDisp_bind hp hw (Nat.not_lt.1 h2), apply_ite (cursorResult · s)]
    rfl

/-- Reading byte by byte asks for a byte exactly where `Decode` compares `avail` with `need`. -/
theorem cursorDecode_eq (h1 : 1 ≤ avail s) :
    cursorDecode s = cursorResult (windowDecode win (avail s)) s := by
  rw [cursorDecode, nextByte_leading_bind hp hw h1]
  cases hc : classify win[0] with
  | pad => simp only [hc, windowDecode_pad hc]; rfl
  | unknown => simp only [hc, windowDecode_unknown hc]; rfl
  | movRmReg w =>
    simp only [hc, windowDecode]
    exact cursorDecodeRM_eq hp hw false w h1
  | movRegRm w =>
    simp only [hc, windowDecode]
    exact cursorDecodeRM_eq hp hw true w h1
  | movRegImm w =>
    cases w with
    | w8 =>
      simp only [hc, windowDecode]
      rw [nextByte_bind hp hw 1 (by decide) h1, apply_ite (cursorResult · s)]
      rfl
    | w16 =>
      simp only [hc, windowDecode]
      rw [nextByte_bind hp hw 1 (by decide) h1, apply_ite (cursorResult · s)]
      by_cases h2 : avail s < 2
      · rw [if_pos h2]
        exact (if_pos (Nat.lt_succ_of_lt h2)).symm
      · rw [if_neg h2]
        dsimp only
        rw [nextByte_bind hp hw 2 (by decide) (Nat.not_lt.1 h2)]
        rfl

end

/-- Settles O44: where the machine stands still both steps do nothing, and where it runs both have the effect of
the one outcome that `Decode` gives. -/
theorem stepIsTheCursorStep : Obligations.StepIsTheCursorStep := by
  intro s hp
  by_cases hstill : s.halted = true ∨ s.pos = s.len
  · rw [step_of_still hstill, cursorStep_of_still hstill]
  · simp only [not_or, Bool.not_eq_true] at hstill
    have hr : Running s := ⟨hstill.1, lt_of_le_of_ne hp hstill.2⟩
    have hw := windowShows_winSignal s
    rw [step_eq_applyOutcome hr hw,
      cursorStep_of_cursorDecode hr (cursorDecode_eq hp hw (avail_bounds hr.2).1)]

end Sys2Proof.Machine
end

section
/-! PROOFS. The decoder reads an instruction back from its encoding, whatever bytes follow, so a step runs the
instruction whose bytes stand at the cursor (R27, R34, R63). -/

namespace Sys2Proof

/-! ### The decoder reads an encoding back -/

/-- An instruction of one byte is padding or the row that its byte selects (R82, R83). -/
theorem unknownRow_of_encode {i : Instr} {b : Byte} (he : encode i = [b]) (hne : i ≠ .pad)
    (hwf : i.wellFormed = true) : classify b = .unknown ∧ unknownRow b = i := by
  obtain ⟨h01, h02, h04, h08, h10, h20, h40, h80, h8C, h90, hA0, hC0⟩ := unknownRow_of_block b
  cases i
  all_goals cases he
  case pad => exact absurd rfl hne
  case unknown01 => exact h01 hwf
  case unknown02 => exact h02 hwf
  case unknown04 => exact h04 hwf
  case unknown08 => exact h08 hwf
  case unknown10 => exact h10 hwf
  case unknown20 => exact h20 hwf
  case unknown40 => exact h40 hwf
  case unknown80 => exact h80 hwf
  case unknown8C => exact h8C hwf
  case unknown90 => exact h90 hwf
  case unknownA0 => exact hA0 hwf
  case unknownC0 => exact hC0 hwf

theorem decode_of_encode_singleton {i : Instr} {b : Byte} (he : encode i = [b]) (hne : i ≠ .pad)
    (hwf : i.wellFormed = true) (rest : List Byte) : decode (encode i ++ rest) = .ok i := by
  obtain ⟨hc, hrow⟩ := unknownRow_of_encode he hne hwf
  rw [he, List.singleton_append, decode_unknown rest hc, hrow]

/-- A refused form of `0x8B` is read from the two bytes it examines, by the mode of its row (R53). -/
theorem decode_encode_refused {i : Instr} {m : Byte} (hi : i.IsRefused m) (hwf : i.wellFormed = true)
    (rest : List Byte) : decode (encode i ++ rest) = .ok i := by
  obtain ⟨h8, h16, hreg⟩ := mode_of_block m
  have hread : decode (0x8B#8 :: m :: rest) = decodeMovRegRm .w16 m rest :=
    decode_movRegRm rest classify_8B m
  obtain rfl | rfl | rfl := hi
  · exact hread.trans (by simp only [decodeMovRegRm, h8.1 hwf])
  · exact hread.trans (by simp only [decodeMovRegRm, h16.1 hwf])
  · exact hread.trans (by simp only [decodeMovRegRm, hreg.1 hwf])

/-- The bytes after an encoding do not matter, and no field is lost: the fields of the ModRM byte are read back by
`midIndex_modRMByte` and its like, a 16-bit one by `halfOf_bytes`. -/
theorem decode_encode_append (i : Instr) (rest : List Byte) (hwf : i.wellFormed = true) :
    decode (encode i ++ rest) = .ok i := by
  cases i with
  | pad => exact decode_pad rest classify_00
  | mov88Mem | mov88Disp8 | mov88Disp16 | mov88Reg | mov89Mem | mov89Disp8 | mov89Disp16 | mov89Reg =>
    simp [encode, decode, decodeMovRmReg]
  | mov8AMem | mov8ADisp8 | mov8ADisp16 | mov8AReg | mov8BMem =>
    simp [encode, decode, decodeMovRegRm]
  | unsupported8BDisp8 => exact decode_encode_refused (.inl rfl) hwf rest
  | unsupported8BDisp16 => exact decode_encode_refused (.inr (.inl rfl)) hwf rest
  | unsupported8BReg => exact decode_encode_refused (.inr (.inr rfl)) hwf rest
  | movImm8 | movImm16 => simp [encode, decode]
  | _ => exact decode_of_encode_singleton rfl (by nofun) hwf rest

end Sys2Proof

namespace Sys2Proof.Machine

/-- Bytes that stand at the cursor are the first of the window, as far as it reaches. -/
theorem window_eq_append {s : State} {n : Nat} {bs : List Byte} (h4 : n ≤ 4)
    (h : memRead s s.pos n = some bs) : ∃ rest, window s = bs ++ rest := by
  obtain ⟨hlen, rfl⟩ := memRead_eq_some.1 h
  have havail : avail s = n + (avail s - n) := by rw [avail_eq]; omega
  exact ⟨_, by rw [window, havail, Memory.readBytes_add]⟩

/-- Settles O10: the window begins with the encoding, and the decoder reads that instruction from it. -/
theorem stepRunsTheInstructionPlacedAtTheCursor :
    Obligations.StepRunsTheInstructionPlacedAtTheCursor := by
  intro s i hh hwf hbytes
  obtain ⟨hlen, -⟩ := memRead_eq_some.1 hbytes
  obtain ⟨rest, hw⟩ := window_eq_append (length_bounds i).2 hbytes
  exact step_of_decode hh (by omega) (by rw [hw, decode_encode_append i rest hwf])

end Sys2Proof.Machine
end

section
/-! PROOFS. The stream's list (R20, R100): its canonical form is the only one that reads as it does, and `load`
builds the one of the program's bytes. -/

namespace Sys2Proof.Machine

namespace Memory

/-! ### One list for each stream -/

theorem read_cons_self (c : Host.Cell) (m : Memory) : Memory.read (c :: m) c.1 = c.2 := if_pos rfl

theorem read_cons_of_ne {c : Host.Cell} {a : Nat} (h : c.1 ≠ a) (m : Memory) :
    Memory.read (c :: m) a = m.read a := if_neg h

/-- The first entry of a canonical list is read, and so not past the first entry of another that reads the same. -/
theorem head_le_of_read_eq {c d : Host.Cell} {m m' : Memory} (h : Memory.wf (c :: m) = true)
    (h' : Memory.wf (d :: m') = true) (hread : ∀ a, Memory.read (c :: m) a = Memory.read (d :: m') a) :
    d.1 ≤ c.1 := by
  obtain ⟨-, hne, -⟩ := (wf_cons _ _).1 h
  obtain ⟨hlt', -, -⟩ := (wf_cons _ _).1 h'
  by_contra hcd
  rw [Nat.not_le] at hcd
  refine hne ((read_cons_self c m).symm.trans ((hread c.1).trans (read_of_lt fun e he => ?_)))
  rcases List.mem_cons.1 he with rfl | he
  · exact hcd
  · exact hcd.trans (hlt' e he)

/-- A canonical list with an entry reads a listed byte somewhere, and the empty list nowhere. -/
theorem exists_read_ne_of_cons {c : Host.Cell} {m : Memory} (h : Memory.wf (c :: m) = true) :
    ∃ a, Memory.read (c :: m) a ≠ Memory.read [] a := by
  obtain ⟨-, hne, -⟩ := (wf_cons _ _).1 h
  exact ⟨c.1, by rwa [read_cons_self, read_nil]⟩

theorem eq_of_read_eq {m : Memory} :
    ∀ {m' : Memory}, m.wf = true → m'.wf = true → (∀ a, m.read a = m'.read a) → m = m' := by
  induction m with
  | nil =>
    intro m' _ h' hread
    cases m' with
    | nil => rfl
    | cons d ds =>
      obtain ⟨a, ha⟩ := exists_read_ne_of_cons h'
      exact absurd (hread a).symm ha
  | cons c cs ih =>
    intro m' h h' hread
    cases m' with
    | nil =>
      obtain ⟨a, ha⟩ := exists_read_ne_of_cons h
      exact absurd (hread a) ha
    | cons d ds =>
      obtain ⟨hlt, -, hcs⟩ := (wf_cons _ _).1 h
      obtain ⟨hlt', -, hds⟩ := (wf_cons _ _).1 h'
      have haddr : c.1 = d.1 :=
        Nat.le_antisymm (head_le_of_read_eq h' h fun a => (hread a).symm) (head_le_of_read_eq h h' hread)
      have hbyte : c.2 = d.2 := by
        rw [← read_cons_self c cs, hread, haddr, read_cons_self]
      have htail : ∀ a, Memory.read cs a = Memory.read ds a := fun a => by
        by_cases ha : c.1 = a
        · rw [read_of_lt (ha ▸ hlt), read_of_lt (ha ▸ haddr ▸ hlt')]
        · rw [← read_cons_of_ne ha, hread, read_cons_of_ne (haddr ▸ ha)]
      rw [Prod.ext haddr hbyte, ih hcs hds htail]

end Memory

/-- Settles O35: the lists agree entry by entry, since the first entry of each is the lowest offset that does not
read as the unlisted byte. -/
theorem canonicalMemoriesThatReadTheSameAreEqual :
    Obligations.CanonicalMemoriesThatReadTheSameAreEqual :=
  fun _ _ => Memory.eq_of_read_eq

/-! ### A loaded program -/

theorem legal_load (bytes : List Byte) : Legal (load bytes) where
  pos_le_len := Nat.zero_le _
  mem_wf := Memory.wf_writeBytes bytes 0 rfl
  mem_in_stream c hc := by
    obtain hc | ⟨-, hlt⟩ := Memory.mem_writeBytes bytes 0 hc
    · cases hc
    · simpa using hlt
  status := ⟨rfl, rfl, rfl⟩

theorem byteAt_load (bytes : List Byte) (a : Nat) : byteAt (load bytes) a = bytes[a]? := by
  rcases Nat.lt_or_ge a bytes.length with ha | ha
  · rw [byteAt_of_lt (s := load bytes) ha, load_mem, Memory.read_writeBytes bytes 0 a rfl]
    simp [ha]
  · rw [List.getElem?_eq_none ha]
    exact if_neg (Nat.not_lt.2 ha)

/-- Settles O34: `load` writes byte `a` of the program at offset `a`, and nothing else. -/
theorem loadPlacesTheWholeStream : Obligations.LoadPlacesTheWholeStream := fun bytes =>
  ⟨legal_load bytes, rfl, rfl, byteAt_load bytes⟩

end Sys2Proof.Machine
end

section
/-! PROOFS. Decoding and encoding are inverse to each other (R34 to R38, R50): whatever the decoder reads is
well formed and stands at the front of the bytes as its encoding. -/

namespace Sys2Proof

/-- The bytes begin with the encoding of the well-formed instruction `i`. -/
def BeginsWith (bytes : List Byte) (i : Instr) : Prop := i.wellFormed = true ∧ encode i <+: bytes

/-- The leading byte of format `RM`, `100010 dir wide` (R36). -/
def rmOpcode : Bool → Width → Byte
  | false, .w8 => 0x88#8
  | false, .w16 => 0x89#8
  | true, .w8 => 0x8A#8
  | true, .w16 => 0x8B#8

theorem rmOpcode_of_classify {b : Byte} {w : Width} :
    (classify b = .movRmReg w → b = rmOpcode false w) ∧ (classify b = .movRegRm w → b = rmOpcode true w) := by
  obtain ⟨-, h88, h89, h8A, h8B, -⟩ := byte_of_classify b
  cases w with
  | w8 => exact ⟨h88, h8A⟩
  | w16 => exact ⟨h89, h8B⟩

section
variable {b m : Byte} {rest : List Byte} {i : Instr}

/-- A ModRM byte is put together from the `mod` of its mode and its two indexes (R36, R39), so reading it drops
no bit. -/
theorem beginsWith_of_modRM {mode : Mode} {disp : List Byte} (hmode : modeOf m = mode)
    (hwf : i.wellFormed = true)
    (he : encode i = b :: modRMByte mode.bits (midIndex m) (lowIndex m) :: disp) (hd : disp <+: rest) :
    BeginsWith (b :: m :: rest) i := by
  subst hmode
  rw [modRMByte_fields] at he
  exact ⟨hwf, by simp [he, hd]⟩

theorem beginsWith_of_decodeMovRmReg {w : Width} (h : decodeMovRmReg w m rest = .ok i) :
    BeginsWith (rmOpcode false w :: m :: rest) i := by
  unfold decodeMovRmReg at h
  split at h <;> cases h
  all_goals next hmode => exact beginsWith_of_modRM hmode rfl rfl (by simp)

/-- A refused mode of `0x8B` keeps the whole ModRM byte, and its row is the one of the mode (R77 to R79). -/
theorem beginsWith_of_decodeMovRegRm {w : Width} (h : decodeMovRegRm w m rest = .ok i) :
    BeginsWith (rmOpcode true w :: m :: rest) i := by
  obtain ⟨hdisp8, hdisp16, hreg⟩ := mode_of_block m
  have hrefused : [rmOpcode true .w16, m] <+: rmOpcode true .w16 :: m :: rest := by simp
  unfold decodeMovRegRm at h
  split at h <;> cases h
  case h_6.refl hmode => exact ⟨hdisp8.2 hmode, hrefused⟩
  case h_7.refl hmode => exact ⟨hdisp16.2 hmode, hrefused⟩
  case h_8.refl hmode => exact ⟨hreg.2 hmode, hrefused⟩
  all_goals next hmode => exact beginsWith_of_modRM hmode rfl rfl (by simp)

end

/-- The format of the leading byte's class says which bytes are read, and `byte_of_classify` that the leading byte
holds nothing else. -/
theorem beginsWith_of_decode {bytes : List Byte} {i : Instr} (h : decode bytes = .ok i) :
    BeginsWith bytes i := by
  cases bytes with
  | nil => cases h
  | cons b rest =>
    obtain ⟨hpad, -, -, -, -, himm8, himm16⟩ := byte_of_classify b
    cases hc : classify b with
    | pad =>
      cases (decode_pad rest hc).symm.trans h
      exact ⟨rfl, by simp [encode, hpad hc]⟩
    | unknown =>
      obtain ⟨hwf, -, he⟩ := unknownRow_spec b hc
      cases (decode_unknown rest hc).symm.trans h
      exact ⟨hwf, by simp [he]⟩
    | movRegImm w =>
      cases w with
      | w8 =>
        match rest with
        | v :: rest =>
          cases (decode_immediate8 rest hc v).symm.trans h
          exact ⟨rfl, by simp [encode, ← himm8 hc]⟩
        | [] => simp [decode, hc] at h
      | w16 =>
        match rest with
        | lo :: hi :: rest =>
          cases (decode_immediate16 rest hc lo hi).symm.trans h
          exact ⟨rfl, by simp [encode, ← himm16 hc]⟩
        | [] | [_] => simp [decode, hc] at h
    | movRmReg w =>
      obtain rfl := rmOpcode_of_classify.1 hc
      match rest with
      | m :: rest => exact beginsWith_of_decodeMovRmReg (decode_movRmReg rest hc m ▸ h)
      | [] => simp [decode, hc] at h
    | movRegRm w =>
      obtain rfl := rmOpcode_of_classify.2 hc
      match rest with
      | m :: rest => exact beginsWith_of_decodeMovRegRm (decode_movRegRm rest hc m ▸ h)
      | [] => simp [decode, hc] at h

/-- Settles O2: each field is read back from the bits the encoder puts it in, and a byte after the encoding is not
looked at. -/
theorem decodeOfEncodeIsTheInstruction : Obligations.DecodeOfEncodeIsTheInstruction :=
  decode_encode_append

/-- Settles O3, format by format: the bytes read are put together again from the fields of the instruction. -/
theorem decodedBytesAreTheEncoding : Obligations.DecodedBytesAreTheEncoding := by
  intro bytes i h
  obtain ⟨hwf, rest, hbytes⟩ := beginsWith_of_decode h
  exact ⟨hwf, rest, hbytes.symm⟩

end Sys2Proof
end

section
/-! PROOFS. How many bytes the decoder asks for (R50, R51), and the row of the opcode table that the first two
bytes select (R49). -/

namespace Sys2Proof

/-! ### Short lists -/

section
variable {w : Width} {b m : Byte} {rest : List Byte}

theorem decodeMovRmReg_truncated_iff :
    decodeMovRmReg w m rest = .error .truncated ↔ rest.length < dispLen (modeOf m) := by
  unfold decodeMovRmReg
  split <;> simp [dispLen, *]

/-- A refused mode of `0x8B` asks for nothing after the ModRM byte (R53). -/
theorem decodeMovRegRm_truncated_iff :
    decodeMovRegRm w m rest = .error .truncated ↔ w = .w8 ∧ rest.length < dispLen (modeOf m) := by
  unfold decodeMovRegRm
  split <;> simp [dispLen, *]

theorem decode_truncated_iff :
    decode (b :: m :: rest) = .error .truncated ↔ rest.length + 2 < insnLen b m := by
  cases hc : classify b with
  | pad => simp [decode_pad _ hc, insnLen, hc]
  | unknown => simp [decode_unknown _ hc, insnLen, hc]
  | movRegImm w =>
    cases w with
    | w8 => simp [decode_immediate8 _ hc, insnLen, hc]
    | w16 => cases rest <;> simp [decode, insnLen, hc]
  | movRmReg w =>
    rw [decode_movRmReg _ hc, decodeMovRmReg_truncated_iff]
    simp [insnLen, hc, Nat.add_comm 2]
  | movRegRm w =>
    rw [decode_movRegRm _ hc, decodeMovRegRm_truncated_iff]
    cases w <;> simp [insnLen, hc, Nat.add_comm 2]

/-- One byte alone is rejected exactly when its class calls for a second one. -/
theorem decode_singleton_truncated_iff :
    decode [b] = .error .truncated ↔ classify b ≠ .pad ∧ classify b ≠ .unknown := by
  cases hc : classify b with
  | movRegImm w => cases w <;> simp [decode, hc]
  | _ => simp [decode, hc]

end

/-- Settles O5: a rejection is told from the class of the leading byte and, for format `RM`, the mode. -/
theorem decodeRejectsExactlyTheShortLists : Obligations.DecodeRejectsExactlyTheShortLists := by
  refine ⟨fun bytes => ⟨eq_nil_of_decode_endOfStream, fun h => h ▸ decode_nil⟩, fun b => ?_,
    fun b m rest => decode_truncated_iff⟩
  obtain ⟨hpad, hunknown, -⟩ := classify_eq_iff b
  have := b.isLt
  rw [decode_singleton_truncated_iff, Ne, hpad, Ne, hunknown]
  omega

/-! ### The length of a decoded instruction -/

section
variable {w : Width} {b m : Byte} {rest : List Byte} {i : Instr}

theorem length_of_decodeMovRmReg (h : decodeMovRmReg w m rest = .ok i) :
    i.length = insnLen (rmOpcode false w) m := by
  unfold decodeMovRmReg at h
  split at h <;> cases h
  all_goals next hmode => simp [Instr.length, insnLen, rmOpcode, dispLen, hmode]

theorem length_of_decodeMovRegRm (h : decodeMovRegRm w m rest = .ok i) :
    i.length = insnLen (rmOpcode true w) m := by
  unfold decodeMovRegRm at h
  split at h <;> cases h
  all_goals next hmode => simp [Instr.length, insnLen, rmOpcode, dispLen, hmode]

theorem length_of_decode (h : decode (b :: m :: rest) = .ok i) : i.length = insnLen b m := by
  cases hc : classify b with
  | pad =>
    cases (decode_pad _ hc).symm.trans h
    simp [Instr.length, insnLen, hc]
  | unknown =>
    cases (decode_unknown _ hc).symm.trans h
    simp [(unknownRow_spec b hc).2.1, insnLen, hc]
  | movRegImm w =>
    cases w with
    | w8 =>
      cases (decode_immediate8 _ hc m).symm.trans h
      simp [Instr.length, insnLen, hc]
    | w16 =>
      match rest with
      | hi :: rest =>
        cases (decode_immediate16 _ hc m hi).symm.trans h
        simp [Instr.length, insnLen, hc]
      | [] => simp [decode, hc] at h
  | movRmReg w =>
    obtain rfl := rmOpcode_of_classify.1 hc
    exact length_of_decodeMovRmReg (decode_movRmReg rest hc m ▸ h)
  | movRegRm w =>
    obtain rfl := rmOpcode_of_classify.2 hc
    exact length_of_decodeMovRegRm (decode_movRegRm rest hc m ▸ h)

/-- Four bytes hold any instruction (R50). -/
theorem exists_decode_of_four (b0 b1 b2 b3 : Byte) : ∃ i, decode [b0, b1, b2, b3] = .ok i := by
  match h : decode [b0, b1, b2, b3] with
  | .ok i => exact ⟨i, rfl⟩
  | .error .endOfStream => cases eq_nil_of_decode_endOfStream h
  | .error .truncated =>
    have hshort := decode_truncated_iff.1 h
    have := (Machine.insnLen_bounds b0 b1).2
    simp at hshort
    omega

end

/-! ### The rows of the opcode table -/

/-- The leading byte and the byte after it, read as the table reads them, match the row. -/
def TableRow.Matches (r : TableRow) (b0 b1 : Byte) : Prop :=
  (b0.setWidth 16 <<< 8 ||| b1.setWidth 16) &&& r.mask = r.value

/-- A row is matched byte by byte. -/
theorem TableRow.matches_of_bytes {r : TableRow} {b0 b1 m0 m1 v0 v1 : Byte} (h0 : inBlock b0 m0 v0 = true)
    (h1 : inBlock b1 m1 v1 = true) (hr : r = ⟨v0 ++ v1, m0 ++ m1⟩) : r.Matches b0 b1 := by
  subst hr
  have hword : b0.setWidth 16 <<< 8 ||| b1.setWidth 16 = b0 ++ b1 := by
    rw [← BitVec.setWidth_append_eq_shiftLeft_setWidth_or, BitVec.setWidth_eq]
  rw [Matches, hword, BitVec.and_append, eq_of_beq h0, eq_of_beq h1]

/-- A byte that the row gives in full. -/
theorem inBlock_self (b : Byte) : inBlock b 0xFF#8 b = true :=
  beq_of_eq BitVec.and_allOnes

/-- A byte that the row does not look at. -/
theorem inBlock_zero (b : Byte) : inBlock b 0#8 0#8 = true :=
  beq_of_eq BitVec.and_zero

theorem inBlock_modRMByte : ∀ (md : BitVec 2) (reg rm : Fin 8),
    inBlock (modRMByte md reg rm) 0xC0#8 (md ++ 0#6) = true := by decide

theorem inBlock_immediate : ∀ r : Fin 8,
    inBlock (0xB0#8 ||| BitVec.ofNat 8 r.val) 0xF8#8 0xB0#8 = true ∧
      inBlock (0xB8#8 ||| BitVec.ofNat 8 r.val) 0xF8#8 0xB8#8 = true := by decide

/-- The encoding of an instruction matches its row, whatever byte follows a leading byte that stands alone. -/
theorem BeginsWith.tableRow_matches {b0 b1 : Byte} {rest : List Byte} {i : Instr}
    (h : BeginsWith (b0 :: b1 :: rest) i) : i.tableRow.Matches b0 b1 := by
  obtain ⟨hwf, henc⟩ := h
  cases i
  all_goals obtain ⟨rfl, htail⟩ := List.cons_prefix_cons.1 henc
  case pad => exact TableRow.matches_of_bytes (inBlock_self _) (inBlock_zero _) rfl
  case movImm8 r _ => exact TableRow.matches_of_bytes (inBlock_immediate r).1 (inBlock_zero _) rfl
  case movImm16 r _ => exact TableRow.matches_of_bytes (inBlock_immediate r).2 (inBlock_zero _) rfl
  case unsupported8BDisp8 | unsupported8BDisp16 | unsupported8BReg =>
    obtain ⟨rfl, -⟩ := List.cons_prefix_cons.1 htail
    exact TableRow.matches_of_bytes (inBlock_self _) hwf rfl
  case mov88Mem | mov88Disp8 | mov88Disp16 | mov88Reg | mov89Mem | mov89Disp8 | mov89Disp16 | mov89Reg |
      mov8AMem | mov8ADisp8 | mov8ADisp16 | mov8AReg | mov8BMem =>
    obtain ⟨rfl, -⟩ := List.cons_prefix_cons.1 htail
    exact TableRow.matches_of_bytes (inBlock_self _) (inBlock_modRMByte _ _ _) rfl
  all_goals exact TableRow.matches_of_bytes hwf (inBlock_zero _) rfl

/-- The 31 rows of spec/opcode_table.json, in its order, each by an instruction that has it. -/
def tableRows : List TableRow :=
  [Instr.pad, .mov88Mem 0 0, .mov88Disp8 0 0 0, .mov88Disp16 0 0 0, .mov88Reg 0 0,
    .mov89Mem 0 0, .mov89Disp8 0 0 0, .mov89Disp16 0 0 0, .mov89Reg 0 0,
    .mov8AMem 0 0, .mov8ADisp8 0 0 0, .mov8ADisp16 0 0 0, .mov8AReg 0 0,
    .mov8BMem 0 0, .unsupported8BDisp8 0, .unsupported8BDisp16 0, .unsupported8BReg 0,
    .movImm8 0 0, .movImm16 0 0, .unknown01 0, .unknown02 0, .unknown04 0, .unknown08 0, .unknown10 0,
    .unknown20 0, .unknown40 0, .unknown80 0, .unknown8C 0, .unknown90 0, .unknownA0 0,
    .unknownC0 0].map Instr.tableRow

theorem tableRow_mem (i : Instr) : i.tableRow ∈ tableRows := by
  cases i <;> simp [tableRows, Instr.tableRow]

/-- Two rows whose fixed bits agree wherever both fix them are one row. -/
theorem eq_of_fixed_bits_agree : ∀ r ∈ tableRows, ∀ r' ∈ tableRows,
    r.value &&& r'.mask = r'.value &&& r.mask → r = r' := by decide

/-- No two rows overlap. -/
theorem tableRow_eq_of_matches {i j : Instr} {b0 b1 : Byte} (hi : i.tableRow.Matches b0 b1)
    (hj : j.tableRow.Matches b0 b1) : j.tableRow = i.tableRow := by
  refine eq_of_fixed_bits_agree _ (tableRow_mem j) _ (tableRow_mem i) ?_
  rw [← hi, ← hj, BitVec.and_assoc, BitVec.and_assoc, BitVec.and_comm i.tableRow.mask]

/-- Settles O4: the bytes match the row of the instruction decoded, as its encoding does, and no other, as rows do
not overlap. -/
theorem eachPairOfBytesDecodesToItsOneTableRow : Obligations.EachPairOfBytesDecodesToItsOneTableRow := by
  intro b0 b1 b2 b3
  obtain ⟨i, hi⟩ := exists_decode_of_four b0 b1 b2 b3
  have hrow : i.tableRow.Matches b0 b1 := (beginsWith_of_decode hi).tableRow_matches
  refine ⟨i, hi, length_of_decode hi, fun j => ⟨tableRow_eq_of_matches hrow, fun hj => ?_⟩⟩
  rw [hj]
  exact hrow

end Sys2Proof
end

section
/-! PROOFS. A word of the opcode table that the host places at the cursor is what the next step reads (R49, R100;
log entries 4 and 8). -/

namespace Sys2Proof

/-- What the decoder reads does not depend on the bytes after it. -/
theorem decode_append {bytes : List Byte} {i : Instr} (h : decode bytes = .ok i) (rest : List Byte) :
    decode (bytes ++ rest) = .ok i := by
  obtain ⟨hwf, rest', rfl⟩ := beginsWith_of_decode h
  rw [List.append_assoc, decode_encode_append i _ hwf]

end Sys2Proof

namespace Sys2Proof.Machine

/-- The bytes written at consecutive addresses are read back from there. -/
theorem Memory.readBytes_writeBytes {m : Memory} (h : m.wf = true) (a : Nat) (bs : List Byte) :
    (m.writeBytes a bs).readBytes a bs.length = bs := by
  refine List.ext_getElem? fun k => ?_
  rw [getElem?_readBytes, read_writeBytes bs a (a + k) h]
  split
  · next hk => simp [hk]
  · next hk => simp [Nat.not_lt.1 hk]

/-- Bytes placed at the cursor stand at the front of the window, if it reaches over all of them. -/
theorem window_placeAtCursor {s : State} {bs : List Byte} (h : s.mem.wf = true) (h4 : bs.length ≤ 4) :
    ∃ rest, window (placeAtCursor bs s) = bs ++ rest := by
  refine window_eq_append h4 (memRead_eq_some.2 ⟨?_, Memory.readBytes_writeBytes h s.pos bs⟩)
  simp

theorem tableBytes_length (nbits w : Nat) : (tableBytes nbits w).length = 4 := by
  unfold tableBytes
  split <;> rfl

theorem decodeTableWord_eq_some {nbits w : Nat} {i : Instr} :
    decodeTableWord nbits w = some i ↔ decode (tableBytes nbits w) = .ok i := by
  unfold decodeTableWord
  split <;> simp [*]

/-- Settles O11: the word's four bytes fill the window, and placing them leaves a machine that takes a step. -/
theorem stepRunsThePlacedTableWord : Obligations.StepRunsThePlacedTableWord := by
  intro s nbits w i hwf hi
  obtain ⟨rest, hw⟩ := window_placeAtCursor hwf (tableBytes_length nbits w).le
  refine step_of_decode (placeAtCursor_halted s _) ?_ ?_
  · exact le_max_of_le_right (Nat.le_add_right _ _)
  · exact hw ▸ decode_append (decodeTableWord_eq_some.1 hi) rest

end Sys2Proof.Machine
end

section
/-! PROOFS. The text of records (R40 to R42, R55 to R58): how operands, lines and numbers are spelled, and that a
line ends where it seems to. -/

namespace Sys2Proof.Machine

/-! ### Names and lines -/

theorem regName_w8 : ∀ i : Fin 8,
    regName .w8 i = ["al", "cl", "dl", "bl", "ah", "ch", "dh", "bh"][i] := by decide

theorem regName_w16 : ∀ i : Fin 8,
    regName .w16 i = ["ax", "cx", "dx", "bx", "sp", "bp", "si", "di"][i] := by decide

theorem baseNames_getElem : ∀ i : Fin 8,
    baseNames[i] = ["bx+si", "bx+di", "bp+si", "bp+di", "si", "di", "bp", "bx"][i] := by decide

/-- Settles O46: the names by their tables, entry by entry, and the rest by the words of a line. -/
theorem linesAreSpelledAsTheSyntaxSays : Obligations.LinesAreSpelledAsTheSyntaxSays := by
  intro i dst src v b o
  simp only [← regName_w8, ← regName_w16, ← baseNames_getElem, ← openBracket_eq, ← closeBracket_eq, ← plusWord_eq,
    ← movWord_eq, ← commaWord_eq, ← unknownWords_eq, ← truncatedWords_eq, ← unsupportedWords_eq, ← atOffsetWords_eq]
  exact ⟨textOf_register i .w8, textOf_register i .w16, textOf_memory i, textOf_memory_disp i v, textOf_immediate v,
    line_insn dst src, line_unknown b, line_failTruncated o, line_failUnsupportedForm b o⟩

/-! ### Numbers -/

theorem dec_natCast (n : Nat) : dec n = Nat.toDigits 10 n := rfl

theorem dec_neg {n : Nat} (h : 0 < n) : dec (-(n : Int)) = '-' :: dec n := by
  cases n with
  | zero => cases h
  | succ n => rfl

/-- Only zero is spelled with a zero in front: the leading digit of a number from 10 on is that of its tenth. -/
theorem eq_zero_of_head_toDigits {n : Nat} (h : (Nat.toDigits 10 n).head? = some '0') : n = 0 := by
  induction n using Nat.strongRecOn with
  | ind n ih =>
    rcases Nat.lt_or_ge n 10 with hn | hn
    · rw [Nat.toDigits_of_lt_base hn] at h
      interval_cases n <;> simp_all [Nat.digitChar]
    · rw [Nat.toDigits_of_base_le (by decide) hn, List.head?_append_of_ne_nil _ Nat.toDigits_ne_nil] at h
      have := ih (n / 10) (by omega) h
      omega

theorem hexDigits_getElem : ∀ k : Fin 16, hexDigits[k] = "0123456789ABCDEF".toList[k]! := by decide

theorem hex2_eq (b : Byte) : ∃ h l : Fin 16, b.toNat = 16 * h.val + l.val ∧
    hex2 b = ["0123456789ABCDEF".toList[h]!, "0123456789ABCDEF".toList[l]!] := by
  have := b.isLt
  refine ⟨⟨b.toNat / 16, by omega⟩, ⟨b.toNat % 16, by omega⟩, (Nat.div_add_mod _ _).symm, ?_⟩
  rw [← hexDigits_getElem, ← hexDigits_getElem]
  rfl

/-- Settles O47: the core library's digits read back as the number, and `Hex2` splits the byte at 16. -/
theorem numbersAreSpelledInDecimalAndHex : Obligations.NumbersAreSpelledInDecimalAndHex := by
  refine ⟨fun n => ?_, fun n => dec_neg, hex2_eq⟩
  rw [dec_natCast]
  exact ⟨Nat.ofDigitChars_ten_toDigits, fun c => Nat.isDigit_of_mem_toDigits (by decide) (by decide),
    eq_zero_of_head_toDigits, rfl⟩

/-! ### The end of a line -/

/-- The text can end a line: it is not empty, does not end in a space and holds no line feed. -/
def EndsLine (t : Text) : Prop := '\n' ∉ t ∧ t ≠ [] ∧ t.getLast? ≠ some ' '

theorem EndsLine.append {t u : Text} (ht : '\n' ∉ t) (hu : EndsLine u) : EndsLine (t ++ u) := by
  obtain ⟨hfeed, hne, hlast⟩ := hu
  exact ⟨by simp [ht, hfeed], by simp [hne], by rwa [List.getLast?_append_of_ne_nil _ hne]⟩

/-- A text with neither space nor line feed in it. -/
theorem endsLine_of_not_mem {t : Text} (hne : t ≠ []) (hfeed : '\n' ∉ t) (hspace : ' ' ∉ t) : EndsLine t :=
  ⟨hfeed, hne, fun h => hspace (List.mem_of_getLast? h)⟩

theorem endsLine_toDigits (n : Nat) : EndsLine (Nat.toDigits 10 n) := by
  have hdigit {c : Char} (h : c ∈ Nat.toDigits 10 n) : c.isDigit = true :=
    Nat.isDigit_of_mem_toDigits (by decide) (by decide) h
  exact endsLine_of_not_mem Nat.toDigits_ne_nil (fun h => absurd (hdigit h) (by decide))
    fun h => absurd (hdigit h) (by decide)

theorem endsLine_dec : ∀ z : Int, EndsLine (dec z)
  | .ofNat n => endsLine_toDigits n
  | .negSucc n => .append (t := ['-']) (by decide) (endsLine_toDigits (n + 1))

theorem hexDigits_ne : ∀ k : Fin 16, '\n' ≠ hexDigits[k] ∧ ' ' ≠ hexDigits[k] := by decide

theorem endsLine_hex2 (b : Byte) : EndsLine (hex2 b) := by
  have hhigh := hexDigits_ne ⟨b.toNat / 16, by have := b.isLt; omega⟩
  have hlow := hexDigits_ne ⟨b.toNat % 16, by omega⟩
  exact endsLine_of_not_mem (by simp [hex2]) (by simpa [hex2] using ⟨hhigh.1, hlow.1⟩)
    (by simpa [hex2] using ⟨hhigh.2, hlow.2⟩)

theorem regName_printable : ∀ (w : Width) (i : Fin 8),
    (regName w i).toList ≠ [] ∧ '\n' ∉ (regName w i).toList ∧ ' ' ∉ (regName w i).toList
  | .w8 => by decide
  | .w16 => by decide

theorem feed_not_mem_baseNames : ∀ i : Fin 8, '\n' ∉ baseNames[i].toList := by decide

theorem endsLine_closeBracket : EndsLine closeBracket := endsLine_of_not_mem (by decide) (by decide) (by decide)

theorem endsLine_textOf : ∀ x : Operand, EndsLine (textOf x)
  | .register i w => by
    obtain ⟨hne, hfeed, hspace⟩ := regName_printable w i
    exact endsLine_of_not_mem hne hfeed hspace
  | .memory i none => by
    rw [textOf_memory]
    exact .append (by simpa [openBracket] using feed_not_mem_baseNames i) endsLine_closeBracket
  | .memory i (some v) => by
    obtain ⟨hdec, -⟩ := endsLine_dec v.toInt
    rw [textOf_memory_disp]
    exact .append (by simpa [openBracket, plusWord, hdec] using feed_not_mem_baseNames i) endsLine_closeBracket
  | .immediate v => endsLine_dec v.toInt

/-- Settles O48: every line ends in an operand, a byte or a number, none of which ends in a space, and no part of
it holds a line feed. -/
theorem linesHoldNoLineFeedOrTrailingSpace : Obligations.LinesHoldNoLineFeedOrTrailingSpace
  | .insn dst src => by
    obtain ⟨hdst, -⟩ := endsLine_textOf dst
    rw [line_insn]
    exact EndsLine.append (by simp [movWord, commaWord, hdst]) (endsLine_textOf src)
  | .unknown b => EndsLine.append (by decide) (endsLine_hex2 b)
  | .failTruncated o => EndsLine.append (by decide) (endsLine_dec o)
  | .failUnsupportedForm m o => by
    obtain ⟨hhex, -⟩ := endsLine_hex2 m
    rw [line_failUnsupportedForm]
    exact EndsLine.append (by simp [unsupportedWords, atOffsetWords, hhex]) (endsLine_dec o)

end Sys2Proof.Machine
end

section
/-! PROOFS. Words and bytes taken apart: words of every family (R35 to R38), the dispatch table (R49) and the ModRM
byte (R39), over all 256 bytes. -/

namespace Sys2Proof

/-- Settles O1: nine closed words, on each of which the decoder is run. -/
theorem wordsOfTheEncodingTablesDecode : Obligations.WordsOfTheEncodingTablesDecode := by
  unfold Obligations.WordsOfTheEncodingTablesDecode
  decide

theorem exists_width {p : Width → Prop} : (∃ w, p w) ↔ p .w8 ∨ p .w16 where
  mp
    | ⟨.w8, h⟩ => .inl h
    | ⟨.w16, h⟩ => .inr h
  mpr h := h.elim (⟨_, ·⟩) (⟨_, ·⟩)

/-- Settles O6: the ranges of the classes, and the bit tests as the ranges of both widths put together. -/
theorem classifyFollowsTheDispatchTable : Obligations.ClassifyFollowsTheDispatchTable := by
  intro b
  obtain ⟨hpad, hunknown, h88, h89, h8A, h8B, himm8, himm16⟩ := classify_eq_iff b
  refine ⟨hpad, hunknown, h88, h89, h8A, h8B, himm8, himm16, ?_, ?_⟩
  · rw [exists_width, h88, h89, h8A, h8B]
    omega
  · rw [exists_width, himm8, himm16]
    omega

theorem modeOf_eq : ∀ m : Byte, modeOf m =
    if m.toNat / 64 = 0 then .memoryNoDisp else if m.toNat / 64 = 1 then .memoryDisp8
      else if m.toNat / 64 = 2 then .memoryDisp16 else .registerDirect := by decide

theorem modeOf_bits_eq : ∀ m : Byte, (modeOf m).bits = BitVec.ofNat 2 (m.toNat / 64) := by decide

theorem dispLen_modeOf (m : Byte) : dispLen (modeOf m) = if m.toNat / 64 = 3 then 0 else m.toNat / 64 := by
  obtain ⟨hno, h8, h16, hreg⟩ := modeOf_eq_iff m
  cases hm : modeOf m with
  | memoryNoDisp => simp [dispLen, hno.1 hm]
  | memoryDisp8 => simp [dispLen, h8.1 hm]
  | memoryDisp16 => simp [dispLen, h16.1 hm]
  | registerDirect => simp [dispLen, hreg.1 hm]

/-- Settles O7: each field by its number, and the byte put together from them. -/
theorem modRMSplitFollowsItsFormulas : Obligations.ModRMSplitFollowsItsFormulas := by
  intro m
  obtain ⟨hreg, hrm⟩ := indexes_val m
  exact ⟨modeOf_eq m, dispLen_modeOf m, hreg, hrm, modeOf_bits_eq m ▸ modRMByte_fields m⟩

end Sys2Proof
end

section
/-! PROOFS. What a step does around the instruction (R61), and where a run ends (R18, R62): a step that does not
stand still moves the cursor, so every run comes to the end of the stream or halts. -/

namespace Sys2Proof.Machine

/-! ### One step -/

/-- Settles O9: the step's two guards let a running machine through. -/
theorem stepRunsTheDecodedInstruction : Obligations.StepRunsTheDecodedInstruction :=
  fun _ _ hr hd => ⟨(beginsWith_of_decode hd).1, step_of_decode hr.1 hr.2.le hd⟩

/-- A step that does not stand still consumes a byte. -/
theorem Taken.still_or_pos_lt {s t : State} (h : Taken s t) :
    (s.halted = true ∨ s.pos = s.len) ∨ s.pos < t.pos := by
  cases h with
  | stays hs => exact .inl hs
  | skips => exact .inr (Nat.lt_succ_self _)
  | emits n r _ hn => exact .inr (Nat.lt_add_of_pos_right hn.1)
  | truncates hr => exact .inr hr.2
  | refuses => exact .inr (Nat.lt_add_of_pos_right Nat.two_pos)

theorem Done.not_halted {s : State} (h : Done s) : s.halted ≠ true := by simp [h.1]

/-- A machine at the end of the stream is done unless it is halted (R62). -/
theorem still_iff {s : State} : s.halted = true ∨ s.pos = s.len ↔ s.halted = true ∨ Done s := by
  cases hh : s.halted <;> simp [Done, hh]

/-- Settles O27: a step that answers the same state has not moved the cursor. -/
theorem onlyTheEndsOfARunStandStill : Obligations.OnlyTheEndsOfARunStandStill := by
  intro s _
  rw [← still_iff]
  exact ⟨fun h => (taken_of_step h).still_or_pos_lt.resolve_right (Nat.lt_irrefl _), step_of_still⟩

/-! ### The end of a run -/

theorem exists_step_of_legal {s : State} (h : Legal s) : ∃ t, step s = .next t ∧ Legal t :=
  have hstep := step_eq_windowStep (.inr h.pos_le_len) (windowShows_winSignal s)
  ⟨_, hstep, everyStepKeepsTheInvariant _ _ h hstep⟩

/-- A run stands still after at most as many steps as bytes are left, by induction on that number. -/
theorem exists_run_still (n : Nat) : ∀ {s : State}, Legal s → s.len - s.pos ≤ n →
    ∃ k t, k ≤ s.len - s.pos ∧ Sys2Proof.core.run k s = .next t ∧ (t.halted = true ∨ t.pos = t.len) := by
  induction n with
  | zero =>
    intro s h hn
    have hpos := h.pos_le_len
    exact ⟨0, s, Nat.zero_le _, rfl, .inr (by omega)⟩
  | succ n ih =>
    intro s h hn
    obtain ⟨u, hstep, hu⟩ := exists_step_of_legal h
    obtain hstill | hlt := (taken_of_step hstep).still_or_pos_lt
    · exact ⟨0, s, Nat.zero_le _, rfl, hstill⟩
    · have hlen := (taken_of_step hstep).stream_eq.2
      have hpos := hu.pos_le_len
      obtain ⟨k, t, hk, hrun, hstill⟩ := ih hu (by omega)
      exact ⟨k + 1, t, by omega, (run_succ_of_step k hstep).trans hrun, hstill⟩

/-- Settles O40: the run stands still in time, and there the status bit tells the two ends apart. -/
theorem everyRunEndsDoneOrHalted : Obligations.EveryRunEndsDoneOrHalted := by
  intro s h
  obtain ⟨k, t, hk, hrun, hstill⟩ := exists_run_still _ h (Nat.le_refl _)
  refine ⟨k, t, hk, hrun, ?_, run_of_fixed (step_of_still hstill)⟩
  obtain hhalted | hdone := still_iff.1 hstill
  · exact .inr ⟨hhalted, fun hdone => hdone.not_halted hhalted⟩
  · exact .inl ⟨hdone, hdone.not_halted⟩

end Sys2Proof.Machine
end

section
/-! PROOFS. The records of a step (R59): every meaning that emits a record emits one of the shapes of the spec's
part 4, and of an accepted form it is an instruction record. -/

namespace Sys2Proof.Machine

/-! ### The record of an instruction -/

theorem exec_of_isRefused {i : Instr} {m : Byte} (h : i.IsRefused m) (s : State) :
    exec i s = .next (unsupportedFrom s m) := by
  obtain rfl | rfl | rfl := h <;> rfl

theorem not_accepted_of_isRefused {i : Instr} {m : Byte} (h : i.IsRefused m) : ¬ i.accepted = true := by
  obtain rfl | rfl | rfl := h <;> nofun

/-- A well-formed instruction that is neither padding nor a refused form emits one record, of a shape that the block
can emit: the values come from fields, and the byte of an unknown row is of class `unknown`. -/
theorem exec_recordShape {i : Instr} (hwf : i.wellFormed = true) (s : State) :
    i = .pad ∨ (∃ m, i.IsRefused m) ∨ i ≠ .pad ∧ ∃ r, exec i s = .next (emitted s i.length r) ∧
      RecordShape r ∧ (i.accepted = true → ∃ dst src, r = .insn dst src) := by
  cases i with
  | pad => exact .inl rfl
  | unsupported8BDisp8 m => exact .inr (.inl ⟨m, .inl rfl⟩)
  | unsupported8BDisp16 m => exact .inr (.inl ⟨m, .inr (.inl rfl)⟩)
  | unsupported8BReg m => exact .inr (.inl ⟨m, .inr (.inr rfl)⟩)
  | mov88Mem | mov89Mem | mov8AMem | mov8BMem =>
    exact .inr (.inr ⟨nofun, _, rfl, trivial, fun _ => ⟨_, _, rfl⟩⟩)
  | mov88Reg | mov89Reg | mov8AReg => exact .inr (.inr ⟨nofun, _, rfl, rfl, fun _ => ⟨_, _, rfl⟩⟩)
  | mov88Disp8 _ _ d | mov89Disp8 _ _ d | mov8ADisp8 _ _ d | movImm8 _ d =>
    exact .inr (.inr ⟨nofun, _, rfl, valueInRange_value8 d, fun _ => ⟨_, _, rfl⟩⟩)
  | mov88Disp16 _ _ d | mov89Disp16 _ _ d | mov8ADisp16 _ _ d | movImm16 _ d =>
    exact .inr (.inr ⟨nofun, _, rfl, valueInRange_value16 d, fun _ => ⟨_, _, rfl⟩⟩)
  | _ b =>
    obtain ⟨hc, -⟩ := unknownRow_of_encode rfl (by nofun) hwf
    obtain ⟨-, hunknown, -⟩ := classify_eq_iff b
    exact .inr (.inr ⟨nofun, _, rfl, hunknown.1 hc, nofun⟩)

/-! ### At most one record a step -/

theorem emitted_output (s : State) (n : Nat) (r : Record) :
    (emitted s n r).output = s.output ++ [⟨s.pos, (emitted s n r).pos - s.pos, r⟩] := by
  simp [emitted]

/-- Settles O29: standing still and padding emit nothing, and every record of the other steps has a shape. -/
theorem aStepEmitsAtMostOneRecord : Obligations.AStepEmitsAtMostOneRecord := by
  intro s t _ h
  obtain ⟨-, hs⟩ | ⟨-, -, hs⟩ | ⟨-, -, hs⟩ | ⟨-, hp, -, -, hs⟩ | ⟨-, i, hd, -, hs⟩ := step_cases s
  · cases hs.symm.trans h; exact .inl rfl
  · cases hs.symm.trans h
  · cases hs.symm.trans h; exact .inl rfl
  · rw [takeException_truncated hp.le] at hs
    cases hs.symm.trans h; exact .inr ⟨_, rfl, trivial⟩
  · obtain rfl | ⟨m, hi⟩ | ⟨-, r, he, hr, -⟩ := exec_recordShape (beginsWith_of_decode hd).1 s
    · cases hs.symm.trans h; exact .inl rfl
    · obtain ⟨-, -, hm⟩ := eq_cons_of_decode_refused hd hi
      cases (hs.trans (exec_of_isRefused hi s)).symm.trans h
      exact .inr ⟨.failUnsupportedForm m (s.pos + 1), emitted_output s 2 _, hm⟩
    · cases (hs.trans he).symm.trans h; exact .inr ⟨r, emitted_output s i.length r, hr⟩

end Sys2Proof.Machine
end

section
/-! PROOFS. A stream of accepted instructions and padding (R62, R82, R104): one step each, from the first byte of a
loaded program to its last. -/

namespace Sys2Proof.Machine

/-! ### The bytes still to come -/

theorem memRead_append {s : State} {a : Nat} {bs cs : List Byte}
    (h : memRead s a (bs ++ cs).length = some (bs ++ cs)) :
    memRead s a bs.length = some bs ∧ memRead s (a + bs.length) cs.length = some cs := by
  simp only [memRead_eq_some, List.length_append, Memory.readBytes_add] at h ⊢
  obtain ⟨hlen, hbytes⟩ := h
  obtain ⟨hb, hc⟩ := List.append_inj hbytes (by simp)
  exact ⟨⟨by omega, hb⟩, by omega, hc⟩

theorem memRead_load (bytes : List Byte) : memRead (load bytes) 0 bytes.length = some bytes :=
  memRead_eq_some.2 ⟨(Nat.zero_add _).le, Memory.readBytes_writeBytes rfl 0 bytes⟩

/-! ### Steps that only decode -/

/-- `t` is `s` with `n` bytes consumed and `k` instruction records handed to the sink, and all else as in `s`. -/
def DecodesInsns (n k : Nat) (s t : State) : Prop :=
  ∃ es : List Emission, t = { s with pos := s.pos + n, output := s.output ++ es } ∧ es.length = k ∧
    ∀ e ∈ es, ∃ dst src, e.record = .insn dst src

theorem DecodesInsns.refl (s : State) : DecodesInsns 0 0 s s := ⟨[], by simp, rfl, nofun⟩

theorem DecodesInsns.trans {s t u : State} {n k n' k' : Nat} (h : DecodesInsns n k s t)
    (h' : DecodesInsns n' k' t u) : DecodesInsns (n + n') (k + k') s u := by
  obtain ⟨es, rfl, rfl, hes⟩ := h
  obtain ⟨fs, rfl, rfl, hfs⟩ := h'
  exact ⟨es ++ fs, by simp [Nat.add_assoc], by simp, List.forall_mem_append.2 ⟨hes, hfs⟩⟩

/-- The bytes at the new cursor are those of `s` after the ones consumed. -/
theorem DecodesInsns.at_cursor {s t : State} {n k : Nat} (h : DecodesInsns n k s t) :
    t.halted = s.halted ∧ ∀ l, memRead t t.pos l = memRead s (s.pos + n) l := by
  obtain ⟨es, rfl, -⟩ := h
  exact ⟨rfl, fun _ => rfl⟩

theorem decodesInsns_advance (n : Nat) (s : State) : DecodesInsns n 0 s (advance n s) :=
  ⟨[], by simp [advance], rfl, nofun⟩

theorem decodesInsns_emitted (n : Nat) (dst src : Operand) (s : State) :
    DecodesInsns n 1 s (emitted s n (.insn dst src)) :=
  ⟨[⟨s.pos, n, .insn dst src⟩], rfl, rfl, List.forall_mem_singleton.2 ⟨dst, src, rfl⟩⟩

/-- The meaning of an accepted instruction consumes its bytes and emits one instruction record, or none for
padding. -/
theorem exec_accepted {i : Instr} (hwf : i.wellFormed = true) (hacc : i.accepted = true) (s : State) :
    ∃ t, exec i s = .next t ∧ DecodesInsns i.length ([i].filter fun i => i ≠ .pad).length s t := by
  obtain rfl | ⟨m, hi⟩ | ⟨hne, r, he, -, hr⟩ := exec_recordShape hwf s
  · exact ⟨_, rfl, decodesInsns_advance 1 s⟩
  · exact absurd hacc (not_accepted_of_isRefused hi)
  · obtain ⟨dst, src, rfl⟩ := hr hacc
    exact ⟨_, he, by simpa [hne] using decodesInsns_emitted i.length dst src s⟩

/-- A machine that is not halted, with the encodings of accepted instructions at its cursor, takes one step for each, by
induction on the list: each step leaves the encodings of the later ones at the cursor. -/
theorem run_accepted {is : List Instr} (h : ∀ i ∈ is, i.wellFormed = true ∧ i.accepted = true) :
    ∀ {s : State}, s.halted = false →
      memRead s s.pos (is.flatMap encode).length = some (is.flatMap encode) →
      ∃ t, Sys2Proof.core.run is.length s = .next t ∧
        DecodesInsns (is.flatMap encode).length (is.filter fun i => i ≠ .pad).length s t := by
  induction is with
  | nil => exact fun {s} _ _ => ⟨s, rfl, .refl s⟩
  | cons i is ih =>
    intro s hh hbytes
    obtain ⟨⟨hwf, hacc⟩, his⟩ := List.forall_mem_cons.1 h
    rw [List.flatMap_cons] at hbytes
    obtain ⟨hi, hrest⟩ := memRead_append hbytes
    rw [encode_length] at hi hrest
    have hstep := stepRunsTheInstructionPlacedAtTheCursor s i hh hwf hi
    obtain ⟨u, he, hu⟩ := exec_accepted hwf hacc s
    obtain ⟨hhalted, hread⟩ := hu.at_cursor
    obtain ⟨t, hrun, ht⟩ := ih his (hhalted.trans hh) ((hread _).trans hrest)
    refine ⟨t, (run_succ_of_step _ (hstep.trans he)).trans hrun, ?_⟩
    rw [List.flatMap_cons, List.length_append, encode_length, ← List.singleton_append, List.filter_append,
      List.length_append]
    exact hu.trans ht

/-- Settles O42: the run consumes the whole of the loaded program and hands only instruction records to the sink. -/
theorem aStreamOfAcceptedInstructionsEndsCleanly :
    Obligations.AStreamOfAcceptedInstructionsEndsCleanly := by
  intro is h
  obtain ⟨t, hrun, es, rfl, hlen, hes⟩ := run_accepted h (s := load (is.flatMap encode)) rfl (memRead_load _)
  exact ⟨_, hrun, ⟨⟨rfl, Nat.zero_add _⟩, hes⟩, hlen⟩

end Sys2Proof.Machine
end

section
/-! PROOFS. Format `RM` (R36, R50): what a step answers at one of its four leading bytes, told from the bytes the stream
still has; then opcodes `0x88` and `0x89` (R64 to R71), whose r/m operand is the destination. -/

namespace Sys2Proof.Machine

/-! ### The leading byte and the ModRM byte -/

theorem classify_rmOpcode (dir : Bool) (w : Width) :
    classify (rmOpcode dir w) = if dir then .movRegRm w else .movRmReg w := by
  cases dir <;> cases w <;> rfl

theorem windowDecode_of_rmOpcode {dir : Bool} {w : Width} {win : Vector Byte 4} (h : win[0] = rmOpcode dir w)
    (n : Nat) : windowDecode win n = windowDecodeRM dir w win n := by
  cases dir <;> simp [windowDecode, h, classify_rmOpcode]

theorem rmOpcode_false_ne_8B (w : Width) : rmOpcode false w ≠ 0x8B#8 := by cases w <;> decide

/-- A ModRM byte in the stream with the `mod` of `mode` splits into that mode and the two indexes. -/
theorem ModRMFields.split {s : State} {mode : Mode} {reg rm : Fin 8}
    (h : ModRMFields s mode.bits.toNat reg rm) : modRMSplit (winSignal s)[1] = ⟨mode, reg, rm⟩ := by
  obtain ⟨m, hm, hfields⟩ := h
  obtain ⟨hmod, rfl, rfl⟩ := fields_of_toNat hfields
  obtain ⟨hno, h8, h16, hreg⟩ := modeOf_eq_iff m
  have hmode : modeOf m = mode := by
    cases mode with
    | memoryNoDisp => exact hno.2 hmod
    | memoryDisp8 => exact h8.2 hmod
    | memoryDisp16 => exact h16.2 hmod
    | registerDirect => exact hreg.2 hmod
  have h1 : (winSignal s)[1] = m := (byteAt_eq_some.1 hm).2
  rw [h1, modRMSplit, hmode]

theorem ModRMFields.lt_len {s : State} {mod : Nat} {reg rm : Fin 8} (h : ModRMFields s mod reg rm) :
    s.pos + 1 < s.len := by
  obtain ⟨m, hm, -⟩ := h
  exact (byteAt_eq_some.1 hm).1

/-! ### The displacement -/

theorem windowDisp_disp8 {s : State} {d : Byte} (h : byteAt s (s.pos + 2) = some d) :
    windowDisp (winSignal s) .memoryDisp8 = some (.i8 (signedValue 8 d.toNat)) := by
  rw [← (byteAt_eq_some.1 h).2, ← value8_eq]
  rfl

theorem windowDisp_disp16 {s : State} {lo hi : Byte} (hlo : byteAt s (s.pos + 2) = some lo)
    (hhi : byteAt s (s.pos + 3) = some hi) :
    windowDisp (winSignal s) .memoryDisp16 = some (.i16 (signedValue 16 (lo.toNat + 256 * hi.toNat))) := by
  rw [← (byteAt_eq_some.1 hlo).2, ← (byteAt_eq_some.1 hhi).2, ← value16_halfOf]
  rfl

/-! ### The step -/

/-- A window that reaches to the end of the stream: every byte left is consumed, and the missing one is at `LEN`. -/
theorem applyOutcome_truncated {s : State} (hp : s.pos ≤ s.len) (h4 : s.len - s.pos ≤ 4) :
    applyOutcome (.halt .truncated, avail s) s = truncatedFrom s := by
  rw [avail_eq, Nat.min_eq_right h4]
  exact takeException_truncated hp

section
variable {s : State} {dir : Bool} {w : Width} (hr : Running s) (hb : LeadingByte s (rmOpcode dir w))
include hr hb

theorem step_of_rmOpcode :
    step s = .next (applyOutcome (windowDecodeRM dir w (winSignal s) (avail s)) s) := by
  rw [step_eq_applyOutcome hr (windowShows_winSignal s), windowDecode_of_rmOpcode (byteAt_eq_some.1 hb).2]

theorem stepIsTruncated_of_no_modRM (hl : s.len - s.pos = 1) : StepIsTruncated s := by
  have havail := avail_eq s
  rw [StepIsTruncated, step_of_rmOpcode hr hb, windowDecodeRM_eq, if_pos (by omega),
    applyOutcome_truncated hr.2.le (by omega)]

variable {mode : Mode} {reg rm : Fin 8} (hf : ModRMFields s mode.bits.toNat reg rm)
  (hok : rmOpcode dir w ≠ 0x8B#8 ∨ mode = .memoryNoDisp)
include hf hok

/-- With the ModRM byte there and its form not refused, all that is left to check is the displacement bytes. -/
theorem step_of_modRM :
    step s = .next (applyOutcome
      (if avail s < 2 + dispLen mode then (.halt .truncated, avail s)
        else emitRM dir w ⟨mode, reg, rm⟩ (windowDisp (winSignal s) mode)) s) := by
  have havail := avail_eq s
  have hlen := hf.lt_len
  have h0 : (winSignal s)[0] = rmOpcode dir w := (byteAt_eq_some.1 hb).2
  rw [step_of_rmOpcode hr hb, windowDecodeRM_eq, h0, hf.split, if_neg (by omega),
    if_neg fun ⟨h8B, hmode⟩ => hok.elim (· h8B) hmode]

theorem stepIsTruncated_of_short_disp (hl : s.len - s.pos < 2 + dispLen mode) : StepIsTruncated s := by
  have havail := avail_eq s
  have hdisp := dispLen_le_two mode
  rw [StepIsTruncated, step_of_modRM hr hb hf hok, if_pos (by omega),
    applyOutcome_truncated hr.2.le (by omega)]

theorem step_of_complete_rm (hl : s.pos + 1 + dispLen mode < s.len) :
    step s = .next (applyOutcome (emitRM dir w ⟨mode, reg, rm⟩ (windowDisp (winSignal s) mode)) s) := by
  have havail := avail_eq s
  have hdisp := dispLen_le_two mode
  rw [step_of_modRM hr hb hf hok, if_neg (by omega)]

end

/-! ### Opcodes `0x88` and `0x89` -/

section
variable {s : State} {w : Width} (hr : Running s) (hb : LeadingByte s (rmOpcode false w)) {mode : Mode}
  {reg rm : Fin 8} (hf : ModRMFields s mode.bits.toNat reg rm)
include hr hb hf

theorem rmReg_stepIsTruncated (hl : s.len - s.pos < 2 + dispLen mode) : StepIsTruncated s :=
  stepIsTruncated_of_short_disp hr hb hf (.inl (rmOpcode_false_ne_8B w)) hl

theorem rmReg_stepsWith {disp : Option Value} (hl : s.pos + 1 + dispLen mode < s.len)
    (hd : windowDisp (winSignal s) mode = disp) :
    StepsWith s (2 + dispLen mode) (.insn (rmOp mode rm w disp) (.register reg w))
      (movWord ++ textOf (rmOp mode rm w disp) ++ commaWord ++ (regName w reg).toList) := by
  subst hd
  exact ⟨step_of_complete_rm hr hb hf (.inl (rmOpcode_false_ne_8B w)) hl, line_insn _ _⟩

end

/-- Settles O12, mode by mode and for both widths at once: the displacement bytes of the mode decide between the two
outcomes. -/
theorem movRegisterToRmStepsAsItsRules : Obligations.MovRegisterToRmStepsAsItsRules := by
  intro s w reg rm hr hb
  replace hb : LeadingByte s (rmOpcode false w) := by cases w <;> exact hb
  refine ⟨stepIsTruncated_of_no_modRM hr hb, fun hf => ?_, fun hf => ⟨fun hl => ?_, ?_⟩, fun hf => ⟨fun hl => ?_, ?_⟩,
    fun hf => ?_⟩
  · exact rmReg_stepsWith hr hb (mode := .memoryNoDisp) hf hf.lt_len rfl
  · exact rmReg_stepIsTruncated hr hb (mode := .memoryDisp8) hf (hl ▸ Nat.lt_succ_self 2)
  · rintro d v hd rfl
    exact rmReg_stepsWith hr hb (mode := .memoryDisp8) hf (byteAt_eq_some.1 hd).1 (windowDisp_disp8 hd)
  · refine rmReg_stepIsTruncated hr hb (mode := .memoryDisp16) hf ?_
    simp only [dispLen]
    omega
  · rintro lo hi v hlo hhi rfl
    exact rmReg_stepsWith hr hb (mode := .memoryDisp16) hf (byteAt_eq_some.1 hhi).1 (windowDisp_disp16 hlo hhi)
  · exact rmReg_stepsWith hr hb (mode := .registerDirect) hf hf.lt_len rfl

/-- Settles O18: each meaning is `retireRmReg` at its width and mode, which emits the record and moves the cursor and
does nothing else; a displacement field has the value `signed_M`. -/
theorem movRegisterToRmMeaningsComplete : Obligations.MovRegisterToRmMeaningsComplete := by
  intro s reg rm d h
  rw [← value8_eq, ← value16_eq]
  exact ⟨rfl, rfl, rfl, rfl, rfl, rfl, rfl, rfl⟩

end Sys2Proof.Machine
end

section
/-! PROOFS. Opcodes `0x8A` and `0x8B` (R72 to R79), whose r/m operand is the source: the forms that decode, and the
refusal of `0x8B` with any `mod` but 00. -/

namespace Sys2Proof.Machine

/-! ### The forms that decode -/

/-- A complete form that is not refused: the `reg` register is the destination. -/
theorem regRm_stepsWith {s : State} {w : Width} {mode : Mode} {reg rm : Fin 8} {disp : Option Value} (hr : Running s)
    (hb : LeadingByte s (rmOpcode true w)) (hf : ModRMFields s mode.bits.toNat reg rm)
    (hok : rmOpcode true w ≠ 0x8B#8 ∨ mode = .memoryNoDisp) (hl : s.pos + 1 + dispLen mode < s.len)
    (hd : windowDisp (winSignal s) mode = disp) :
    StepsWith s (2 + dispLen mode) (.insn (.register reg w) (rmOp mode rm w disp))
      (movWord ++ (regName w reg).toList ++ commaWord ++ textOf (rmOp mode rm w disp)) := by
  subst hd
  exact ⟨step_of_complete_rm hr hb hf hok hl, line_insn _ _⟩

/-- Settles O13, mode by mode: no mode of `0x8A` is refused, so the displacement bytes of the mode decide between the
two outcomes. -/
theorem movRmToByteRegisterStepsAsItsRules : Obligations.MovRmToByteRegisterStepsAsItsRules := by
  intro s reg rm hr hb
  replace hb : LeadingByte s (rmOpcode true .w8) := hb
  have hok {mode : Mode} : rmOpcode true .w8 ≠ 0x8B#8 ∨ mode = .memoryNoDisp := .inl (by decide)
  refine ⟨stepIsTruncated_of_no_modRM hr hb, fun hf => ?_, fun hf => ⟨fun hl => ?_, ?_⟩, fun hf => ⟨fun hl => ?_, ?_⟩,
    fun hf => ?_⟩
  · exact regRm_stepsWith hr hb (mode := .memoryNoDisp) hf hok hf.lt_len rfl
  · exact stepIsTruncated_of_short_disp hr hb (mode := .memoryDisp8) hf hok (hl ▸ Nat.lt_succ_self 2)
  · rintro d v hd rfl
    exact regRm_stepsWith hr hb (mode := .memoryDisp8) hf hok (byteAt_eq_some.1 hd).1 (windowDisp_disp8 hd)
  · refine stepIsTruncated_of_short_disp hr hb (mode := .memoryDisp16) hf hok ?_
    simp only [dispLen]
    omega
  · rintro lo hi v hlo hhi rfl
    exact regRm_stepsWith hr hb (mode := .memoryDisp16) hf hok (byteAt_eq_some.1 hhi).1 (windowDisp_disp16 hlo hhi)
  · exact regRm_stepsWith hr hb (mode := .registerDirect) hf hok hf.lt_len rfl

/-- Settles O19: each meaning is `retireRegRm` at its width and mode, which emits the record and moves the cursor and
does nothing else; a displacement field has the value `signed_M`. -/
theorem movRmToRegisterMeaningsComplete : Obligations.MovRmToRegisterMeaningsComplete := by
  intro s reg rm d h
  rw [← value8_eq, ← value16_eq]
  exact ⟨rfl, rfl, rfl, rfl, rfl⟩

/-! ### The refused forms -/

/-- The refusal is decided once the ModRM byte is read: no byte after it is asked for (R53, R90). -/
theorem step_of_refused_modRM {s : State} {m : Byte} (hr : Running s) (hb : LeadingByte s (rmOpcode true .w16))
    (hm : byteAt s (s.pos + 1) = some m) (hmode : modeOf m ≠ .memoryNoDisp) :
    step s = .next (unsupportedFrom s m) := by
  obtain ⟨hlen, h1⟩ : s.pos + 1 < s.len ∧ (winSignal s)[1] = m := byteAt_eq_some.1 hm
  have h0 : (winSignal s)[0] = 0x8B#8 := (byteAt_eq_some.1 hb).2
  have havail := avail_eq s
  rw [step_of_rmOpcode hr hb, windowDecodeRM_eq, h0, h1, if_neg (by omega), if_pos ⟨rfl, hmode⟩]
  rfl

/-- Settles O14: with `mod` 00 the form is complete at its ModRM byte, and with any other `mod` that byte is all the
refusal looks at. -/
theorem movRmToWordRegisterStepsAsItsRules : Obligations.MovRmToWordRegisterStepsAsItsRules := by
  intro s reg rm hr hb
  replace hb : LeadingByte s (rmOpcode true .w16) := hb
  refine ⟨stepIsTruncated_of_no_modRM hr hb, fun hf => ?_, fun m hm hmod => ?_⟩
  · exact regRm_stepsWith hr hb (mode := .memoryNoDisp) hf (.inr rfl) hf.lt_len rfl
  · exact step_of_refused_modRM hr hb hm (mt (modeOf_eq_iff m).1.1 hmod)

/-- Settles O20: the three forms are those of `Instr.IsRefused`. -/
theorem refusedFormMeaningsHalt : Obligations.RefusedFormMeaningsHalt := fun s _ =>
  ⟨exec_of_isRefused (.inl rfl) s, exec_of_isRefused (.inr (.inl rfl)) s, exec_of_isRefused (.inr (.inr rfl)) s⟩

end Sys2Proof.Machine
end

section
/-! PROOFS. Opcodes `0xB0` to `0xBF` (R37, R80, R81): the immediate has one byte, and a second one where the opcode's
`wide` bit is set, so both widths are told apart by `wideBit` alone. -/

namespace Sys2Proof.Machine

/-! ### The leading byte and the immediate -/

/-- The fields of an immediate opcode: `wide` is bit 3 and `r` is bits 2 to 0 (R37). -/
theorem classify_lowIndex_of_immediate {b : Byte} {w : Width} {r : Fin 8}
    (h : b.toNat = 0xB0 + 8 * wideBit w + r.val) : classify b = .movRegImm w ∧ lowIndex b = r := by
  obtain ⟨-, -, -, -, -, -, himm8, himm16⟩ := classify_eq_iff b
  have hr := r.isLt
  cases w with
  | w8 =>
    rw [wideBit] at h
    exact ⟨himm8.2 (by omega), (fields_of_toNat (md := 2) (reg := 6) h).2.2⟩
  | w16 =>
    rw [wideBit] at h
    exact ⟨himm16.2 (by omega), (fields_of_toNat (md := 2) (reg := 7) h).2.2⟩

theorem wideBit_le_one (w : Width) : wideBit w ≤ 1 := by cases w <;> decide

/-- The immediate that `Decode` takes from the window (R45). -/
def windowImm (win : Vector Byte 4) : Width → Value
  | .w8 => value8 win[1]
  | .w16 => value16 (halfOf win[1] win[2])

theorem windowDecode_immediate {win : Vector Byte 4} {w : Width} (hc : classify win[0] = .movRegImm w) (n : Nat) :
    windowDecode win n =
      if n < 2 + wideBit w then (.halt .truncated, n)
      else (.emit (.insn (regOp (lowIndex win[0]) w) (.immediate (windowImm win w))), 2 + wideBit w) := by
  simp only [windowDecode, hc]
  cases w <;> rfl

theorem windowImm_w8 {s : State} {d : Byte} (hd : byteAt s (s.pos + 1) = some d) :
    windowImm (winSignal s) .w8 = .i8 (signedValue 8 d.toNat) := by
  rw [← (byteAt_eq_some.1 hd).2, ← value8_eq]
  rfl

theorem windowImm_w16 {s : State} {lo hi : Byte} (hlo : byteAt s (s.pos + 1) = some lo)
    (hhi : byteAt s (s.pos + 2) = some hi) :
    windowImm (winSignal s) .w16 = .i16 (signedValue 16 (lo.toNat + 256 * hi.toNat)) := by
  rw [← (byteAt_eq_some.1 hlo).2, ← (byteAt_eq_some.1 hhi).2, ← value16_halfOf]
  rfl

/-! ### The step -/

section
variable {s : State} {b : Byte} {w : Width} {r : Fin 8} (hr : Running s) (hb : LeadingByte s b)
  (hop : b.toNat = 0xB0 + 8 * wideBit w + r.val)
include hr hb hop

theorem step_of_immediate :
    step s = .next (applyOutcome
      (if avail s < 2 + wideBit w then (.halt .truncated, avail s)
        else (.emit (.insn (.register r w) (.immediate (windowImm (winSignal s) w))), 2 + wideBit w)) s) := by
  obtain ⟨hc, hlow⟩ := classify_lowIndex_of_immediate hop
  have h0 : (winSignal s)[0] = b := (byteAt_eq_some.1 hb).2
  rw [step_eq_applyOutcome hr (windowShows_winSignal s), windowDecode_immediate (h0 ▸ hc), h0, hlow, regOp]

theorem immediate_stepIsTruncated (hl : s.len - s.pos < 2 + wideBit w) : StepIsTruncated s := by
  have havail := avail_eq s
  have hwide := wideBit_le_one w
  rw [StepIsTruncated, step_of_immediate hr hb hop, if_pos (by omega),
    applyOutcome_truncated hr.2.le (by omega)]

theorem immediate_stepsWith {v : Value} (hl : s.pos + 1 + wideBit w < s.len)
    (hv : windowImm (winSignal s) w = v) :
    StepsWith s (2 + wideBit w) (.insn (.register r w) (.immediate v))
      (movWord ++ (regName w r).toList ++ commaWord ++ dec v.toInt) := by
  subst hv
  have havail := avail_eq s
  have hwide := wideBit_le_one w
  refine ⟨?_, line_insn _ _⟩
  rw [step_of_immediate hr hb hop, if_neg (by omega)]
  rfl

end

/-- Settles O15, width by width: the bytes of the immediate decide between the two outcomes. -/
theorem movImmediateStepsAsItsRules : Obligations.MovImmediateStepsAsItsRules := by
  refine fun s r b hr hb => ⟨fun hop => ⟨fun hl => ?_, ?_⟩, fun hop => ⟨fun hl => ?_, ?_⟩⟩
  · exact immediate_stepIsTruncated hr hb (w := .w8) hop (hl ▸ Nat.lt_succ_self 1)
  · rintro d v hd rfl
    exact immediate_stepsWith hr hb (w := .w8) hop (byteAt_eq_some.1 hd).1 (windowImm_w8 hd)
  · refine immediate_stepIsTruncated hr hb (w := .w16) hop ?_
    rw [wideBit]
    omega
  · rintro lo hi v hlo hhi rfl
    exact immediate_stepsWith hr hb (w := .w16) hop (byteAt_eq_some.1 hhi).1 (windowImm_w16 hlo hhi)

/-- Settles O21: each meaning emits its record and moves the cursor and does nothing else; an immediate field has the
value `signed_M`. -/
theorem movImmediateMeaningsComplete : Obligations.MovImmediateMeaningsComplete := by
  intro s r v h
  rw [← value8_eq, ← value16_eq]
  exact ⟨rfl, rfl⟩

end Sys2Proof.Machine
end

section
/-! PROOFS. Padding and the unknown opcodes (R82, R83): one leading byte decides the outcome, and no other outcome of
`Decode` is an unknown opcode's. -/

namespace Sys2Proof.Machine

/-! ### The outcome of an unknown opcode -/

theorem leadingByte_iff {s : State} {b : Byte} (hr : Running s) : LeadingByte s b ↔ (winSignal s)[0] = b :=
  byteAt_eq_some.trans (and_iff_right hr.2)

theorem windowDecodeRM_ne_emit_unknown (dir : Bool) (w : Width) (win : Vector Byte 4) (n k : Nat) (b : Byte) :
    windowDecodeRM dir w win n ≠ (.emit (.unknown b), k) := by
  rw [windowDecodeRM_eq]
  split_ifs
  · nofun
  · nofun
  · nofun
  · cases dir <;> nofun

/-- `Decode` emits an unknown opcode's diagnostic for the bytes of class `unknown` only, each by its own value. -/
theorem windowDecode_eq_emit_unknown {win : Vector Byte 4} {n : Nat} {b : Byte} :
    windowDecode win n = (.emit (.unknown b), 1) ↔ win[0] = b ∧ classify b = .unknown where
  mpr := by
    rintro ⟨rfl, hc⟩
    exact windowDecode_unknown hc n
  mp h := by
    cases hc : classify win[0] with
    | pad => rw [windowDecode_pad hc] at h; cases h
    | unknown =>
      rw [windowDecode_unknown hc] at h
      cases h
      exact ⟨rfl, hc⟩
    | movRegImm w =>
      rw [windowDecode_immediate hc] at h
      split_ifs at h
      · cases h
      · cases h
    | movRmReg w =>
      simp only [windowDecode, hc] at h
      exact (windowDecodeRM_ne_emit_unknown _ _ _ _ _ _ h).elim
    | movRegRm w =>
      simp only [windowDecode, hc] at h
      exact (windowDecodeRM_ne_emit_unknown _ _ _ _ _ _ h).elim

/-- Of the outcomes of `Decode`, only `Emit r` has no effect but to emit `r` and move the cursor: skipping emits
nothing, and the two terminal ones halt. -/
theorem applyOutcome_eq_emitted {o : StepOutcome × Nat} {s : State} {n : Nat} {r : Record} (hh : s.halted = false) :
    applyOutcome o s = emitted s n r ↔ o = (.emit r, n) where
  mpr := by rintro rfl; rfl
  mp h := by
    have hhalted : (applyOutcome o s).halted = false := (congrArg (·.halted) h).trans hh
    have hout : (applyOutcome o s).output = s.output ++ [⟨s.pos, n, r⟩] := congrArg (·.output) h
    obtain ⟨_ | r' | _ | m, k⟩ := o
    · simp [applyOutcome] at hout
    · obtain ⟨rfl, rfl⟩ : k = n ∧ r' = r := by simpa [applyOutcome] using hout
      rfl
    · cases hhalted
    · cases hhalted

/-! ### The step and the meanings -/

/-- Settles O17: the step is the diagnostic's exactly where `Decode` of the window is, and that is told by the leading
byte. -/
theorem unknownOpcodeIsDiagnosedAndTheRunGoesOn : Obligations.UnknownOpcodeIsDiagnosedAndTheRunGoesOn := by
  intro s b hr
  obtain ⟨-, hunknown, -⟩ := classify_eq_iff b
  calc LeadingByte s b ∧ UnknownByte b
      ↔ (winSignal s)[0] = b ∧ classify b = .unknown := and_congr (leadingByte_iff hr) hunknown.symm
    _ ↔ windowDecode (winSignal s) (avail s) = (.emit (.unknown b), 1) := windowDecode_eq_emit_unknown.symm
    _ ↔ step s = .next (emitted s 1 (.unknown b)) := by
      rw [step_eq_applyOutcome hr (windowShows_winSignal s), Host.Outcome.next.injEq, applyOutcome_eq_emitted hr.1]
    _ ↔ StepsWith s 1 (.unknown b) (unknownWords ++ hex2 b) := (and_iff_left rfl).symm

/-- Settles O16: a leading `0x00` has the outcome `Skip`, whose effect is to move the cursor by one. -/
theorem paddingIsSkipped : Obligations.PaddingIsSkipped := by
  intro s hr hb
  have hc : classify (winSignal s)[0] = .pad := by rw [(leadingByte_iff hr).1 hb, classify_00]
  rw [step_eq_applyOutcome hr (windowShows_winSignal s), windowDecode_pad hc]
  rfl

/-- Settles O22: `pad` only moves the cursor, and every unknown row takes `UnknownOpcode`, which emits the diagnostic
and moves the cursor by one, whatever byte the row holds. -/
theorem paddingAndUnknownMeaningsComplete : Obligations.PaddingAndUnknownMeaningsComplete := fun _ _ =>
  ⟨rfl, rfl, rfl, rfl, rfl, rfl, rfl, rfl, rfl, rfl, rfl, rfl, rfl⟩

end Sys2Proof.Machine
end

section
/-! PROOFS. The exceptions (R85 to R94): `Truncated` is raised exactly where the stream ends before the bytes an
instruction needs, and no run from a legal state stops. -/

namespace Sys2Proof

/-- Where the second byte is there, what can still be missing is the displacement of a format `RM` instruction, but
never of `0x8B` (R53), or the second byte of an immediate (R50, R86). -/
theorem lt_insnLen_iff {b m : Byte} {n : Nat} (hn : 2 ≤ n) :
    n < insnLen b m ↔
      (0x88 ≤ b.toNat ∧ b.toNat ≤ 0x8A ∧ n < 2 + dispLen (modeOf m)) ∨
      (0xB8 ≤ b.toNat ∧ b.toNat ≤ 0xBF ∧ n = 2) := by
  obtain ⟨hpad, hunknown, h88, h89, h8A, h8B, himm8, himm16⟩ := classify_eq_iff b
  unfold insnLen
  split
  case h_1 hc =>
    have hb := hpad.1 hc
    omega
  case h_2 hc =>
    have hb := hunknown.1 hc
    omega
  case h_3 hc =>
    have hb := himm8.1 hc
    omega
  case h_4 hc =>
    have hb := himm16.1 hc
    omega
  case h_5 w hc =>
    have hb : b.toNat = 0x88 ∨ b.toNat = 0x89 := by
      cases w with
      | w8 => exact .inl (h88.1 hc)
      | w16 => exact .inr (h89.1 hc)
    omega
  case h_6 hc =>
    have hb := h8A.1 hc
    omega
  case h_7 hc =>
    have hb := h8B.1 hc
    omega

end Sys2Proof

namespace Sys2Proof.Machine

/-! ### `Truncated` (R86) -/

/-- Of the meanings only a refused form's halts, and its cause is another one. -/
theorem exec_ne_truncatedFrom {s : State} (hh : s.halted = false) (i : Instr) :
    exec i s ≠ .next (truncatedFrom s) := by
  intro h
  obtain ⟨-, he⟩ | ⟨m, -, he⟩ | ⟨-, r, he⟩ := exec_cases i s
  all_goals have heq := Host.Outcome.next.inj (he.symm.trans h)
  · cases hh.symm.trans (congrArg (·.halted) heq)
  · cases congrArg (·.faultKind) heq
  · cases hh.symm.trans (congrArg (·.halted) heq)

/-- A running step raises `Truncated` exactly where the decoder finds the window too short. -/
theorem stepIsTruncated_iff {s : State} (hr : Running s) :
    StepIsTruncated s ↔ decode (window s) = .error .truncated := by
  obtain ⟨hh, hp⟩ := hr
  constructor
  · intro h
    cases hd : decode (window s) with
    | ok i => exact (exec_ne_truncatedFrom hh i ((step_of_decode hh hp.le hd).symm.trans h)).elim
    | error e =>
      cases e with
      | endOfStream => exact (Nat.not_le.2 hp (window_eq_nil.1 (eq_nil_of_decode_endOfStream hd))).elim
      | truncated => rfl
  · intro hd
    rw [StepIsTruncated, step_of_truncated hh hp.le hd, takeException_truncated hp.le]

section
variable {s : State} {b : Byte} (hb : LeadingByte s b)
include hb

/-- The window at the last byte of the stream. -/
theorem window_eq_singleton (hl : s.len - s.pos = 1) : window s = [b] := by
  obtain ⟨hp, h0⟩ := byteAt_eq_some.1 hb
  rw [window_eq_cons hp, h0, avail_eq, hl]
  rfl

/-- The window with the byte after the leading one in the stream. -/
theorem window_eq_cons_cons {m : Byte} (hm : byteAt s (s.pos + 1) = some m) :
    ∃ rest, window s = b :: m :: rest ∧ rest.length + 2 = avail s := by
  obtain ⟨-, h0⟩ := byteAt_eq_some.1 hb
  obtain ⟨hlen, h1⟩ := byteAt_eq_some.1 hm
  have hread : memRead s s.pos 2 = some [b, m] := memRead_eq_some.2 ⟨hlen, by rw [← h0, ← h1]; rfl⟩
  obtain ⟨rest, hw⟩ := window_eq_append (by decide) hread
  exact ⟨rest, hw, by rw [← window_length, hw]; rfl⟩

end

/-- Settles O24: at the last byte every instruction of more than one byte is too short, and from the second byte on
`need` is known. -/
theorem truncatedIsRaisedExactlyForMissingBytes : Obligations.TruncatedIsRaisedExactlyForMissingBytes := by
  intro s b hr hb
  refine (stepIsTruncated_iff hr).trans ?_
  have hp := hr.2
  obtain hl | hl : s.len - s.pos = 1 ∨ s.pos + 1 < s.len := by omega
  · obtain ⟨hpad, hunknown, -⟩ := classify_eq_iff b
    have hnone : byteAt s (s.pos + 1) = none := if_neg (by omega)
    rw [window_eq_singleton hb hl, decode_singleton_truncated_iff, Ne, hpad, Ne, hunknown]
    have hbyte := b.isLt
    simp only [hnone, hl, reduceCtorEq, false_and, exists_false, and_false, false_or, true_or, and_true]
    omega
  · have hm := byteAt_of_lt hl
    obtain ⟨rest, hw, hlen⟩ := window_eq_cons_cons hb hm
    have havail := avail_eq s
    rw [hw, decode_truncated_iff, lt_insnLen_iff (by omega), dispLen_modeOf]
    simp only [hm, Option.some.injEq, exists_eq_left']
    split_ifs
    · omega
    · omega

/-! ### Runs -/

/-- Settles O38, by induction on the number of steps: every step from a legal state answers a legal one. -/
theorem noRunFromALegalStateStops : Obligations.NoRunFromALegalStateStops := by
  intro s k h
  induction k generalizing s with
  | zero => exact ⟨s, rfl, h⟩
  | succ k ih =>
    obtain ⟨u, hstep, hu⟩ := exists_step_of_legal h
    obtain ⟨t, hrun, ht⟩ := ih u hu
    exact ⟨t, (run_succ_of_step k hstep).trans hrun, ht⟩

end Sys2Proof.Machine
end

section
/-! PROOFS. What any number of steps keeps: a run neither touches the stream nor leaves the legal states, so the
cursor stays within its register (R106) and a run after reset is the earlier run again (R99). -/

namespace Sys2Proof.Machine

/-! ### What a run keeps -/

/-- What every step keeps, every run keeps, by induction on the number of steps. -/
theorem keeps_of_run {P : State → Prop} (hkeep : ∀ s t, P s → step s = .next t → P t) (k : Nat) {s t : State}
    (hs : P s) (h : Sys2Proof.core.run k s = .next t) : P t := by
  induction k generalizing s with
  | zero => cases h; exact hs
  | succ k ih =>
    obtain ⟨u, hstep, hrun⟩ := step_of_run_succ h
    exact ih (hkeep s u hs hstep) hrun

theorem legal_of_run {s t : State} {k : Nat} (hs : Legal s) (h : Sys2Proof.core.run k s = .next t) : Legal t :=
  keeps_of_run everyStepKeepsTheInvariant k hs h

theorem stream_eq_of_run {s t : State} {k : Nat} (h : Sys2Proof.core.run k s = .next t) :
    t.mem = s.mem ∧ t.len = s.len := by
  refine keeps_of_run (P := fun u => u.mem = s.mem ∧ u.len = s.len) ?_ k ⟨rfl, rfl⟩ h
  rintro u v ⟨hmem, hlen⟩ hstep
  obtain ⟨hmem', hlen'⟩ := (taken_of_step hstep).stream_eq
  exact ⟨hmem'.trans hmem, hlen'.trans hlen⟩

/-! ### The cursor's register -/

/-- The report is at its reset values, or names an offset of the stream or the stream's end. -/
theorem LegalStatus.report_le_len {s : State} (h : LegalStatus s) :
    s.faultOffset ≤ s.len ∧ s.faultStart ≤ s.len := by
  unfold LegalStatus at h
  split at h
  · obtain ⟨-, hoffset, -, hstart, -⟩ | ⟨-, hoffset, -, -, m, hm, -⟩ := h
    · exact ⟨hoffset.le, hstart.le⟩
    · obtain ⟨hlt, -⟩ := byteAt_eq_some.1 hm
      omega
  · obtain ⟨-, hoffset, hstart⟩ := h
    omega

/-- Settles O39: after the run the state is legal, so all three offsets are at most its `LEN`, which is still the one
that the host bounded. -/
theorem theCursorFitsItsRegister : Obligations.TheCursorFitsItsRegister := by
  intro s t k w hs hw h
  obtain ⟨-, hlen⟩ := stream_eq_of_run h
  have ht := legal_of_run hs h
  have hwt : FitsWidth w t := hlen.trans_lt hw
  obtain ⟨hoffset, hstart⟩ := ht.status.report_le_len
  exact ⟨hwt, ht.pos_le_len.trans_lt hwt, hoffset.trans_lt hwt, hstart.trans_lt hwt⟩

/-! ### A run after reset -/

/-- A state is its block, its stream and the sink's log. -/
theorem eq_with_output {t t' : State} {es : List Emission} (hb : t'.toBlock = t.toBlock) (hm : t'.mem = t.mem)
    (hl : t'.len = t.len) (ho : t'.output = es) : t' = { t with output := es } := by
  cases t'
  cases hb; cases hm; cases hl; cases ho
  rfl

/-- Settles O41: the earlier run left the stream alone, so the two machines at reset differ in their sinks' logs only,
which no run depends on. -/
theorem aRunAfterResetRepeatsTheEarlierRun : Obligations.ARunAfterResetRepeatsTheEarlierRun := by
  intro s s' t j k hearlier hrun
  obtain ⟨hmem, hlen⟩ := stream_eq_of_run hearlier
  obtain ⟨es, t', hrun', hb, hm, hl, ho, ho'⟩ :=
    theFiveItemsAreTheWholeState (applyReset s) (applyReset s') t k rfl hmem hlen hrun
  exact ⟨es, ho, hrun'.trans (congrArg _ (eq_with_output hb hm hl ho'))⟩

end Sys2Proof.Machine
end
